-- ==== Sys2Proof/Word.lean ====
section
/-! DEFINITION. The two data widths of the block (spec/00_scope.md R7): an 8-bit byte and a 16-bit word, both
unsigned. Addition on them is `+` of `BitVec`, which is the spec's `+8` and `+16` (R9). -/

namespace Sys2Proof

/-- The 8-bit data and register width (R7). -/
abbrev Byte := BitVec 8

/-- The 16-bit program counter and address width (R7). -/
abbrev Word := BitVec 16

end Sys2Proof
end

