-- ==== Sys2Proof/Config.lean ====
section
/-! DEFINITION. What is fixed for a block and is not state (spec/10_state.md R41): the two constants the source fixes
(spec/00_scope.md R7, decision D24), and the register values a block holds between creation and its first `reset()`,
which the spec leaves unspecified (R36). The opcode table `OPTAB` and the flag positions `Z_BIT` and `N_BIT` are
parameters too; their defaults stand where a repair can reach them: `opcodeTable` in Sys2Proof/Decode.lean, `zBit` and
`nBit` in Sys2Proof/Machine/Flags.lean. -/

namespace Sys2Proof

/-- `LOAD_ADDR`, where `load` puts the image (R7, R236). -/
def Config.loadAddr : Word := 0x8000

/-- `RESET_VEC`, the address of the reset vector's low byte (R7, R230). -/
def Config.resetVec : Word := 0xFFFC

/-- The longest image `load` accepts (spec/70_reset_and_hazards.md R237). DESIGN CHOICE (decision D9), log entry 7. -/
def Config.maxImage : Nat := 0x8000

/-- FREE VALUE: `A` between creation and the first reset (R36; U7: never a value picked). Log entry 5. -/
opaque Config.createdA : Byte

/-- FREE VALUE: `X` between creation and the first reset (R36). Log entry 5. -/
opaque Config.createdX : Byte

/-- FREE VALUE: `Y` between creation and the first reset (R36). Log entry 5. -/
opaque Config.createdY : Byte

/-- FREE VALUE: `P` between creation and the first reset (R36). Log entry 5. -/
opaque Config.createdP : Byte

/-- FREE VALUE: `PC` between creation and the first reset (R36). Log entry 5. -/
opaque Config.createdPC : Word

end Sys2Proof
end

