-- ==== Sys2Proof/Syntax.lean ====
section
/-! DEFINITION. The closed set of addressing modes (spec/40_addressing_modes.md R100), the three instruction formats
(spec/30_encoding.md R81), the five handlers (spec/42_execute_cycle.md R136), the shape of an opcode table (R85), and
`Instr`: one constructor per row of spec/opcode_table.json, named by its handler and mode, carrying its operand. -/

namespace Sys2Proof

/-- The ten addressing modes (R100). -/
inductive Mode where
  | immediate
  | zeroPage
  | zeroPageX
  | zeroPageY
  | absolute
  | absoluteX
  | absoluteY
  | indirectX
  | indirectY
  | noneAddressing
  deriving DecidableEq, Repr

/-- How many operand bytes a mode takes (R87). -/
def Mode.operandBytes : Mode → Nat
  | .noneAddressing => 0
  | .immediate | .zeroPage | .zeroPageX | .zeroPageY | .indirectX | .indirectY => 1
  | .absolute | .absoluteX | .absoluteY => 2

/-- The three formats (R81): opcode alone; opcode and `d8`; opcode and `a16`, low byte first. -/
inductive Format where
  | f1
  | f2
  | f3
  deriving DecidableEq, Repr

/-- The length in bytes of an instruction of a format (R80, R81). -/
def Format.len : Format → Nat
  | .f1 => 1
  | .f2 => 2
  | .f3 => 3

/-- The five handlers (R2, R136). -/
inductive Handler where
  | lda
  | sta
  | tax
  | inx
  | brk
  deriving DecidableEq, Repr

/-- What the core reads of one row of `OPTAB`: the key, the mode and the length (R85). The mnemonic and the cycle
count are never read and are left out (U15). -/
structure OptabRow where
  opcode : Byte
  mode   : Mode
  len    : Nat
  deriving DecidableEq, Repr

/-- An opcode table (R85): the parameter `OPTAB` of the cycle (R8). -/
abbrev Optab := List OptabRow

/-- The instructions: one constructor per row of spec/opcode_table.json (R86), with its operand (R84). -/
inductive Instr where
  | brk
  | ldaImmediate (d8 : Byte)
  | ldaZeroPage  (d8 : Byte)
  | ldaZeroPageX (d8 : Byte)
  | ldaAbsolute  (a16 : Word)
  | ldaAbsoluteX (a16 : Word)
  | ldaAbsoluteY (a16 : Word)
  | ldaIndirectX (d8 : Byte)
  | ldaIndirectY (d8 : Byte)
  | staZeroPage  (d8 : Byte)
  | staZeroPageX (d8 : Byte)
  | staAbsolute  (a16 : Word)
  | staAbsoluteX (a16 : Word)
  | staAbsoluteY (a16 : Word)
  | staIndirectX (d8 : Byte)
  | staIndirectY (d8 : Byte)
  | tax
  | inx
  deriving DecidableEq, Repr

/-- The handler that an instruction's name says (R2). -/
def Instr.handler : Instr → Handler
  | .brk => .brk
  | .ldaImmediate _ => .lda
  | .ldaZeroPage _ => .lda
  | .ldaZeroPageX _ => .lda
  | .ldaAbsolute _ => .lda
  | .ldaAbsoluteX _ => .lda
  | .ldaAbsoluteY _ => .lda
  | .ldaIndirectX _ => .lda
  | .ldaIndirectY _ => .lda
  | .staZeroPage _ => .sta
  | .staZeroPageX _ => .sta
  | .staAbsolute _ => .sta
  | .staAbsoluteX _ => .sta
  | .staAbsoluteY _ => .sta
  | .staIndirectX _ => .sta
  | .staIndirectY _ => .sta
  | .tax => .tax
  | .inx => .inx

/-- The addressing mode that an instruction's name says (R86). -/
def Instr.mode : Instr → Mode
  | .brk => .noneAddressing
  | .ldaImmediate _ => .immediate
  | .ldaZeroPage _ => .zeroPage
  | .ldaZeroPageX _ => .zeroPageX
  | .ldaAbsolute _ => .absolute
  | .ldaAbsoluteX _ => .absoluteX
  | .ldaAbsoluteY _ => .absoluteY
  | .ldaIndirectX _ => .indirectX
  | .ldaIndirectY _ => .indirectY
  | .staZeroPage _ => .zeroPage
  | .staZeroPageX _ => .zeroPageX
  | .staAbsolute _ => .absolute
  | .staAbsoluteX _ => .absoluteX
  | .staAbsoluteY _ => .absoluteY
  | .staIndirectX _ => .indirectX
  | .staIndirectY _ => .indirectY
  | .tax => .noneAddressing
  | .inx => .noneAddressing

/-- The format that an instruction's operand fits (R81): no operand, a byte, a word. -/
def Instr.format : Instr → Format
  | .brk => .f1
  | .ldaImmediate _ => .f2
  | .ldaZeroPage _ => .f2
  | .ldaZeroPageX _ => .f2
  | .ldaAbsolute _ => .f3
  | .ldaAbsoluteX _ => .f3
  | .ldaAbsoluteY _ => .f3
  | .ldaIndirectX _ => .f2
  | .ldaIndirectY _ => .f2
  | .staZeroPage _ => .f2
  | .staZeroPageX _ => .f2
  | .staAbsolute _ => .f3
  | .staAbsoluteX _ => .f3
  | .staAbsoluteY _ => .f3
  | .staIndirectX _ => .f2
  | .staIndirectY _ => .f2
  | .tax => .f1
  | .inx => .f1

/-- The length of an instruction in bytes: opcode and operand bytes (R80). -/
def Instr.len (i : Instr) : Nat := i.format.len

end Sys2Proof
end

