-- ==== Sys2Proof/WellFormed.lean ====
section
/-! DEFINITION. Well-formedness. Operand bytes are never illegal (spec/30_encoding.md R88) and an operand's width is its
type, so what is left to check of an instruction is that its operand has the size its mode takes (R87); of an opcode
table, that each row's length agrees with its mode (R87, decision D4, U11) and that it is a mapping, one row a byte (R85). -/

namespace Sys2Proof

/-- The condition D4 and U11 put on a row: `len = 1 + operand_bytes(mode)` (R87). -/
def OptabRow.wf (r : OptabRow) : Bool := r.len == 1 + r.mode.operandBytes

/-- No byte has two rows: the table is a mapping from opcode byte (R85). -/
def Optab.keysDistinct : Optab → Bool
  | [] => true
  | r :: rest => (rest.all fun q => q.opcode != r.opcode) && Optab.keysDistinct rest

/-- A table a block may be created with (D4, U11). -/
def Optab.wf (tab : Optab) : Bool := tab.all OptabRow.wf && Optab.keysDistinct tab

/-- A handler that calls the resolver needs an operand mode; the others take NoneAddressing (R111, R136). -/
def Handler.resolves : Handler → Bool
  | .lda | .sta => true
  | .tax | .inx | .brk => false

/-- A handler, mode and format that fit together: the format has the mode's operand bytes, and the mode is
NoneAddressing exactly for the handlers that resolve nothing. -/
def shapeFits (h : Handler) (m : Mode) (f : Format) : Bool :=
  f.len == 1 + m.operandBytes && (h.resolves == (m != .noneAddressing))

/-- A well-formed instruction (R84, R87). -/
def Instr.wf (i : Instr) : Bool := shapeFits i.handler i.mode i.format

end Sys2Proof
end

