-- ==== Sys2Proof/Decode.lean ====
section
/-! DEFINITION. The opcode table and the decoder (spec/30_encoding.md; the part `opcode_decoder_mux`): byte order, the
default `OPTAB` (R86), the wiring of opcode bytes to handlers (R89), decoding by looking the whole opcode byte up row by
row (R82), the encoder, and the host's `decodeTableWord`. -/

namespace Sys2Proof

/-- `word(hi, lo)`: `hi * 256 + lo` (R9). -/
def word (hi lo : Byte) : Word := hi ++ lo

/-- `w[7:0]`. -/
def loByte (w : Word) : Byte := w.extractLsb' 0 8

/-- `w[15:8]`. -/
def hiByte (w : Word) : Byte := w.extractLsb' 8 8

/-- `zext_16(b)` (R9): the word whose low byte is `b` and whose high byte is 0x00. -/
def zext16 (b : Byte) : Word := b.setWidth 16

/-- How an instruction is put together from its operand bytes (R81, R84). -/
inductive Operands where
  | none (i : Instr)
  | d8  (build : Byte → Instr)
  | a16 (build : Word → Instr)

/-- The instruction with operand byte 1 `b1` and byte 2 `b2`; a format without the byte ignores it (R81). -/
def Operands.assemble (o : Operands) (b1 b2 : Byte) : Instr :=
  match o with
  | .none i => i
  | .d8 build => build b1
  | .a16 build => build (word b2 b1)

/-- One row of R86: the opcode byte, the handler it is wired to, the mode, the length, and its instruction. -/
structure OpcodeRow where
  opcode   : Byte
  handler  : Handler
  mode     : Mode
  len      : Nat
  operands : Operands

/-- The rows of R86 for `BRK`, `TAX` and `INX`: the four bytes the source shows, less 0xA9. -/
def implicitRows : List OpcodeRow :=
  [⟨0x00, .brk, .noneAddressing, 1, .none .brk⟩,
   ⟨0xAA, .tax, .noneAddressing, 1, .none .tax⟩,
   ⟨0xE8, .inx, .noneAddressing, 1, .none .inx⟩]

/-- The rows of R86 for `LDA`. DESIGN CHOICE: the spec's own default, in which
all bytes but 0xA9 are general knowledge (G2, D3); log entry 1. -/
def ldaRows : List OpcodeRow :=
  [⟨0xA9, .lda, .immediate, 2, .d8 .ldaImmediate⟩,
   ⟨0xA5, .lda, .zeroPage,  2, .d8 .ldaZeroPage⟩,
   ⟨0xB5, .lda, .zeroPageX, 2, .d8 .ldaZeroPageX⟩,
   ⟨0xAD, .lda, .absolute,  3, .a16 .ldaAbsolute⟩,
   ⟨0xBD, .lda, .absoluteX, 3, .a16 .ldaAbsoluteX⟩,
   ⟨0xB9, .lda, .absoluteY, 3, .a16 .ldaAbsoluteY⟩,
   ⟨0xA1, .lda, .indirectX, 2, .d8 .ldaIndirectX⟩,
   ⟨0xB1, .lda, .indirectY, 2, .d8 .ldaIndirectY⟩]

/-- The rows of R86 for `STA`. DESIGN CHOICE: the spec's own default, in which
all seven bytes are general knowledge (G3, D3); log entry 1. -/
def staRows : List OpcodeRow :=
  [⟨0x85, .sta, .zeroPage,  2, .d8 .staZeroPage⟩,
   ⟨0x95, .sta, .zeroPageX, 2, .d8 .staZeroPageX⟩,
   ⟨0x8D, .sta, .absolute,  3, .a16 .staAbsolute⟩,
   ⟨0x9D, .sta, .absoluteX, 3, .a16 .staAbsoluteX⟩,
   ⟨0x99, .sta, .absoluteY, 3, .a16 .staAbsoluteY⟩,
   ⟨0x81, .sta, .indirectX, 2, .d8 .staIndirectX⟩,
   ⟨0x91, .sta, .indirectY, 2, .d8 .staIndirectY⟩]

/-- The default opcode table (R86) with the handler each byte is wired to (R89). Decisions D3, D23; log entry 1. -/
def opcodeTable : List OpcodeRow := implicitRows ++ ldaRows ++ staRows

/-- What the core reads of a row: its key, mode and length (R85). -/
def OpcodeRow.toOptabRow (r : OpcodeRow) : OptabRow := ⟨r.opcode, r.mode, r.len⟩

/-- The default `OPTAB` (R86). -/
def defaultOptab : Optab := opcodeTable.map OpcodeRow.toOptabRow

/-- `OPTAB(b)`: the row of a byte, or none (R85). -/
def Optab.lookup (tab : Optab) (b : Byte) : Option OptabRow := tab.find? fun r => r.opcode == b

/-- The row of the default table for an opcode byte. -/
def findRow (b : Byte) : Option OpcodeRow := opcodeTable.find? fun r => r.opcode == b

/-- The handler wired to an opcode byte, whatever `OPTAB` says of it (R89, R135, D23). -/
def handlerOf (b : Byte) : Option Handler := (findRow b).map OpcodeRow.handler

/-- Decode an opcode byte and the two bytes after it; none where the default table has no entry (R88). Bytes past the
instruction's length are ignored. -/
def decodeBytes (b0 b1 b2 : Byte) : Option Instr :=
  (findRow b0).map fun r => r.operands.assemble b1 b2

/-- Why a byte string is not an instruction. -/
inductive DecodeError where
  /-- The string is empty. -/
  | noBytes
  /-- The opcode byte has no entry in the default table (R88, R201). -/
  | unrecognizedOpcode (b : Byte)
  /-- The opcode byte is followed by fewer operand bytes than its length asks for. -/
  | truncated (b : Byte)
  deriving DecidableEq, Repr

/-- Decode the instruction at the head of a byte string, giving the bytes after it (R83). -/
def decode : List Byte → Except DecodeError (Instr × List Byte)
  | [] => .error .noBytes
  | b0 :: rest =>
    match findRow b0 with
    | none => .error (.unrecognizedOpcode b0)
    | some r =>
      if rest.length + 1 < r.len then .error (.truncated b0)
      else .ok (r.operands.assemble (rest.getD 0 0) (rest.getD 1 0), rest.drop (r.len - 1))

/-- Format F2: the opcode byte, then the operand byte (R81). -/
def encodeD8 (op d8 : Byte) : List Byte := [op, d8]

/-- Format F3: the opcode byte, then the operand word, low byte first (R81). -/
def encodeA16 (op : Byte) (a16 : Word) : List Byte := [op, loByte a16, hiByte a16]

/-- The bytes of an instruction (R81, R86). -/
def encode : Instr → List Byte
  | .brk => [0x00]
  | .ldaImmediate d8 => encodeD8 0xA9 d8
  | .ldaZeroPage d8 => encodeD8 0xA5 d8
  | .ldaZeroPageX d8 => encodeD8 0xB5 d8
  | .ldaAbsolute a16 => encodeA16 0xAD a16
  | .ldaAbsoluteX a16 => encodeA16 0xBD a16
  | .ldaAbsoluteY a16 => encodeA16 0xB9 a16
  | .ldaIndirectX d8 => encodeD8 0xA1 d8
  | .ldaIndirectY d8 => encodeD8 0xB1 d8
  | .staZeroPage d8 => encodeD8 0x85 d8
  | .staZeroPageX d8 => encodeD8 0x95 d8
  | .staAbsolute a16 => encodeA16 0x8D a16
  | .staAbsoluteX a16 => encodeA16 0x9D a16
  | .staAbsoluteY a16 => encodeA16 0x99 a16
  | .staIndirectX d8 => encodeD8 0x81 d8
  | .staIndirectY d8 => encodeD8 0x91 d8
  | .tax => [0xAA]
  | .inx => [0xE8]

/-- Byte `k` of an instruction given as a number `w` of `nbits` bits, first byte least significant; the bits from
`nbits` on are 0. -/
def tableByte (nbits w k : Nat) : Byte := BitVec.ofNat 8 (w % 2 ^ nbits / 256 ^ k)

/-- What the decoder reads from an instruction whose bits are `w`, numbered as spec/opcode_table.json numbers them. -/
def decodeTableWord (nbits w : Nat) : Option Instr :=
  match decode [tableByte nbits w 0, tableByte nbits w 1, tableByte nbits w 2] with
  | .ok (i, _) => some i
  | .error _ => none

end Sys2Proof
end

