-- ==== Sys2Proof/Machine/State.lean ====
section
/-! DEFINITION. The state of the block (spec/10_state.md), why a step can stop, and the state right after reset (R38).
Everything the spec gives the machine is a field of `State`; INVENTORY.md's list says which rule names each. -/

namespace Sys2Proof.Machine

/-- Memory (spec/20_memory.md R50): the addressed bytes that differ from `blankByte`, addresses strictly rising.
The canonical form is the model's (log entry 14); `Memory.wf` in Machine/Ops.lean states it. -/
abbrev Memory := List Host.Cell

/-- The five run states (R33). -/
inductive RunState where
  | idle
  | fetching
  | dispatching
  | halted
  | faulted
  deriving DecidableEq, Repr

/-- The three faults of the block and what each records (spec/60_exceptions.md R200). They are taken inside the machine:
a step that raises one answers a next state. -/
inductive CoreFault where
  /-- Step 3: the fetched byte has no entry in the table (R201). -/
  | unrecognizedOpcode (b : Byte)
  /-- Step 4: the byte has an entry and no handler (R203). Not raised under the default table. -/
  | notYetImplemented (b : Byte)
  /-- A handler asked to resolve this mode, which can only be NoneAddressing (R202). Not raised under the default table. -/
  | unsupportedAddressingMode (m : Mode)
  deriving DecidableEq, Repr

/-- The state of the block. -/
@[ext]
structure State where
  /-- `A`, the accumulator (R21). -/
  a : Byte
  /-- `X`, index register X (R22). -/
  x : Byte
  /-- `Y`, index register Y (R23). -/
  y : Byte
  /-- `P`, the status register, all eight bits (R27). -/
  p : Byte
  /-- `PC`, the program counter (R25). -/
  pc : Word
  /-- `PCpre`, the pre-execution counter (R35). -/
  pcPre : Word
  /-- `Mem` (R50). -/
  mem : Memory
  /-- The run state (R33). -/
  runState : RunState
  /-- The fault record, empty unless the run state is Faulted (R34). -/
  faultRecord : Option CoreFault
  /-- Whether `reset()` has been called since creation (R130, R240). -/
  wasReset : Bool
  deriving DecidableEq, Repr

/-- Why the model's step is stuck. No rule of the spec stops the machine: its own faults are `CoreFault`. -/
inductive Fault where
  /-- Raised by `step` alone, in run state Dispatching: an instruction is in progress there, a cycle is atomic (R142), and
  no state between two steps is in it (an invariant, `State.Inv`). Safe: the hardware is never seen there (R33). -/
  | midInstruction
  deriving DecidableEq, Repr

/-- What the spec gives no meaning to: the moves it refuses the host (spec/70_reset_and_hazards.md R240). -/
inductive Refusal where
  /-- Raised by `exec` for an instruction without a meaning: none is left. Safe. -/
  | notModelled (mnemonic : String)
  /-- Raised by `hostRun` before the first reset (R240, D7). Safe: the spec refuses it. -/
  | runBeforeReset
  /-- Raised by `hostRun`, and so by `step`, in Halted (R215, R240, D8). Safe: the spec refuses it. -/
  | runAfterHalt
  /-- Raised by `hostRun`, and so by `step`, in Faulted (R215, R240, D8). Safe: the spec refuses it. -/
  | runAfterFault
  /-- Raised by every host move in Fetching and Dispatching (R66, R240, D15). Safe: no such move exists. -/
  | hostDuringRun
  /-- Raised by `hostLoad` for an image of `n` bytes, `n` over 0x8000 (R237, D9). Safe: the spec refuses it. -/
  | imageTooLong (n : Nat)
  /-- Raised by `createWith` (Machine/Block.lean) for a table whose lengths disagree with its modes or that is no mapping (D4, U11). Safe:
  the spec asks a model to refuse it. -/
  | illFormedOptab
  deriving DecidableEq, Repr

/-- The block right after the reset of a freshly created block (R38, R232): memory is all zero, so the vector read gives
0x0000. `pcPre`: R38 leaves it unspecified; DESIGN CHOICE 0x0000, log entry 11. -/
def State.reset : State :=
  { a := 0x00
    x := 0x00
    y := 0x00
    p := 0x00
    pc := 0x0000
    pcPre := 0x0000
    mem := []
    runState := .idle
    faultRecord := none
    wasReset := true }

end Sys2Proof.Machine
end

