-- ==== Sys2Proof/Machine/Ops.lean ====
section
/-! DEFINITION. The named operations over memory and registers: the four memory primitives (spec/20_memory.md R52 to R57),
register writes, the two program counter advances (spec/42_execute_cycle.md R132, R133, R137), the halt, taking a fault
(spec/60_exceptions.md R205) and the fetch. There is no return from a fault or from the halt (R215): the way out is the
host's `reset()`, `hostReset` in Machine/HostOps.lean. -/

namespace Sys2Proof.Machine

/-- What an address nothing has written reads as: memory is "zero-initialized at creation" (R51). Log entry 14. -/
def blankByte : Byte := 0x00

/-- The canonical form: addresses strictly rising and below 65536, no listed byte equal to `blankByte`. -/
abbrev Memory.wf (m : Memory) : Prop :=
  m.Pairwise (fun c d => c.1 < d.1) ∧ ∀ c ∈ m, c.1 < 65536 ∧ c.2 ≠ blankByte

/-- The byte at an address (R52). -/
def Memory.read : Memory → Nat → Byte
  | [], _ => blankByte
  | (k, b) :: m, n => if n = k then b else Memory.read m n

/-- Remove the cell of an address: it then reads as `blankByte`. -/
def Memory.erase (m : Memory) (n : Nat) : Memory := m.filter fun c => c.1 != n

/-- Put a cell before the first one with a higher address. -/
def Memory.insert : Memory → Nat → Byte → Memory
  | [], n, b => [(n, b)]
  | (k, c) :: m, n, b => if n < k then (n, b) :: (k, c) :: m else (k, c) :: Memory.insert m n b

/-- Store a byte at an address (R53), keeping the canonical form: writing `blankByte` removes the address's entry. -/
def Memory.write (m : Memory) (n : Nat) (b : Byte) : Memory :=
  if b = blankByte then Memory.erase m n else Memory.insert (Memory.erase m n) n b

/-- `MemRead(addr, 1)` (R52). -/
def State.read (s : State) (addr : Word) : Byte := s.mem.read addr.toNat

/-- `MemWrite(addr, 1, b)` (R53). -/
def State.write (s : State) (addr : Word) (b : Byte) : State := { s with mem := s.mem.write addr.toNat b }

/-- `MemRead(addr, 2)`, little-endian (R54); the high byte's address is modulo 65536 (R57, D6; log entry 4). -/
def State.readWord (s : State) (addr : Word) : Word := word (s.read (addr + 1)) (s.read addr)

/-- `MemWrite(addr, 2, w)`, low byte first (R55). -/
def State.writeWord (s : State) (addr w : Word) : State := (s.write addr (loByte w)).write (addr + 1) (hiByte w)

/-- `A <- b`. -/
def State.setA (s : State) (b : Byte) : State := { s with a := b }

/-- `X <- b`. -/
def State.setX (s : State) (b : Byte) : State := { s with x := b }

/-- `P <- b`. -/
def State.setP (s : State) (b : Byte) : State := { s with p := b }

/-- Steps 1 and 2 of the cycle: `PC` moves past the opcode byte, modulo 65536 (R26, D5; log entry 3), the run state
becomes Dispatching (R132), and the new `PC` is latched (R133). -/
def State.beginInstr (s : State) : State :=
  { s with pc := s.pc + 1, pcPre := s.pc + 1, runState := .dispatching }

/-- Step 5: `PC` moves past the operand bytes if the handler left it alone, and the run state is Fetching again (R137). -/
def State.endInstr (s : State) (len : Nat) : State :=
  { s with pc := if s.pc = s.pcPre then s.pc + (BitVec.ofNat 16 len - 1) else s.pc, runState := .fetching }

/-- `halt` (R9, R195). -/
def State.halt (s : State) : State := { s with runState := .halted }

/-- `raise Fault(kind, info)` (R205): the one operation that takes a fault. Decisions D12, D13; log entry 8. -/
def State.raiseFault (s : State) (f : CoreFault) : State :=
  { s with runState := .faulted, faultRecord := some f }

/-- The instruction the bytes at `PC` are, none where the opcode byte has no entry (R131 steps 1, 3). -/
def State.fetchInstr (s : State) : Option Instr :=
  decodeBytes (s.read s.pc) (s.read (s.pc + 1)) (s.read (s.pc + 2))

/-- The cycle of an opcode byte without an entry: steps 1 and 2, then the fault of step 3 (R134, R201). -/
def State.takeUnrecognized (s : State) : State := s.beginInstr.raiseFault (.unrecognizedOpcode (s.read s.pc))

/-- Put an instruction given as a number where the next fetch reads, and the core in a run (`State.withFetchWord`). -/
def State.placeInstr (s : State) (nbits w : Nat) : State :=
  { ((s.write s.pc (tableByte nbits w 0)).write (s.pc + 1) (tableByte nbits w 1)).write (s.pc + 2) (tableByte nbits w 2)
    with runState := .fetching }

end Sys2Proof.Machine
end

