-- ==== Sys2Proof/Machine/Halting.lean ====
section
/-! DEFINITION. `BRK` (spec/45_halt.md): a stop and only a stop (R196). Step 5 of the cycle is not reached (R138). -/

namespace Sys2Proof.Machine

/-- `BRK` (R195). -/
def execBrk (s : State) : Host.Outcome State Fault Refusal := .next s.beginInstr.halt

end Sys2Proof.Machine
end

