-- ==== Sys2Proof/Machine/Flags.lean ====
section
/-! DEFINITION. The status register's bits (spec/10_state.md R27) and the flag updater (spec/41_flag_update.md). -/

namespace Sys2Proof.Machine

/-- `Z_BIT`. DESIGN CHOICE: the spec's own decision D2, log entry 2. -/
def zBit : Nat := 1

/-- `N_BIT`. DESIGN CHOICE: the spec's own decision D2, log entry 2. -/
def nBit : Nat := 7

/-- Bit `k` of a status byte made 1 or 0, the others kept. -/
def withBit (p : Byte) (k : Nat) (v : Bool) : Byte :=
  if v then p ||| BitVec.twoPow 8 k else p &&& ~~~ BitVec.twoPow 8 k

/-- `UpdateZN` on the status byte (R120): Z from `r == 0x00`, N from `r[7]`, every other bit kept. -/
def updateZN (r p : Byte) : Byte := withBit (withBit p zBit (r == 0x00)) nBit (r.getLsbD 7)

/-- `UpdateZN(r)` (R120). -/
def State.updateZN (s : State) (r : Byte) : State := s.setP (Machine.updateZN r s.p)

/-- `P[Z]` (R28). -/
def State.flagZ (s : State) : Bool := s.p.getLsbD zBit

/-- `P[N]` (R29). -/
def State.flagN (s : State) : Bool := s.p.getLsbD nBit

end Sys2Proof.Machine
end

