-- ==== Sys2Proof/Machine/Operands.lean ====
section
/-! DEFINITION. Effective addresses (spec/40_addressing_modes.md, the part `address_mode_resolver`). Each mode is given
once as a function of its operand and the registers and memory it reads; `resolve` is the spec's `Resolve`, which takes
the operand from memory at `PC`. Nothing here changes a state (R101, R112). -/

namespace Sys2Proof.Machine

/-- ZeroPage (R103). -/
def eaZeroPage (d8 : Byte) (_s : State) : Word := zext16 d8

/-- ZeroPageX (R104): the sum wraps in page 0. -/
def eaZeroPageX (d8 : Byte) (s : State) : Word := zext16 (d8 + s.x)

/-- ZeroPageY (R105). No row of the default table uses it (R93). -/
def eaZeroPageY (d8 : Byte) (s : State) : Word := zext16 (d8 + s.y)

/-- Absolute (R106). -/
def eaAbsolute (a16 : Word) (_s : State) : Word := a16

/-- AbsoluteX (R107): the sum crosses pages and wraps at 65536. -/
def eaAbsoluteX (a16 : Word) (s : State) : Word := a16 + zext16 s.x

/-- AbsoluteY (R108). -/
def eaAbsoluteY (a16 : Word) (s : State) : Word := a16 + zext16 s.y

/-- The word a zero-page pointer points with: two byte reads, the second wrapping in page 0; not a word read (R70). -/
def zeroPagePointer (ptr : Byte) (s : State) : Word := word (s.read (zext16 (ptr + 1))) (s.read (zext16 ptr))

/-- IndirectX (R109): `X` is added to the pointer's address. -/
def eaIndirectX (d8 : Byte) (s : State) : Word := zeroPagePointer (d8 + s.x) s

/-- IndirectY (R110): `Y` is added to the address fetched. -/
def eaIndirectY (d8 : Byte) (s : State) : Word := zeroPagePointer d8 s + zext16 s.y

/-- `Resolve(mode)` (R101 to R111), with `PC` at the first operand byte. -/
def resolve (m : Mode) (s : State) : Except CoreFault Word :=
  match m with
  | .immediate => .ok s.pc
  | .zeroPage => .ok (eaZeroPage (s.read s.pc) s)
  | .zeroPageX => .ok (eaZeroPageX (s.read s.pc) s)
  | .zeroPageY => .ok (eaZeroPageY (s.read s.pc) s)
  | .absolute => .ok (eaAbsolute (s.readWord s.pc) s)
  | .absoluteX => .ok (eaAbsoluteX (s.readWord s.pc) s)
  | .absoluteY => .ok (eaAbsoluteY (s.readWord s.pc) s)
  | .indirectX => .ok (eaIndirectX (s.read s.pc) s)
  | .indirectY => .ok (eaIndirectY (s.read s.pc) s)
  | .noneAddressing => .error (.unsupportedAddressingMode .noneAddressing)

end Sys2Proof.Machine
end

