-- ==== Sys2Proof/Machine/LoadStore.lean ====
section
/-! DEFINITION. `LDA` and `STA` (spec/43_load_store.md): the two handlers, and one meaning per row of the opcode table.
A meaning is one whole cycle (R131) of its instruction from run state Fetching with `PC` at the opcode byte; the operand
is the one decoded from the bytes after it (log entry 10). -/

namespace Sys2Proof.Machine

/-- What `LDA` does with the byte it loads (R160). -/
def State.loadA (s : State) (v : Byte) : State := (s.setA v).updateZN v

/-- What `STA` does at its effective address (R170, D19; log entry 12). -/
def State.storeA (s : State) (ea : Word) : State := s.write ea s.a

/-- A load's cycle: advance, load from the address `ea` gives, advance past the operand (R131, R160). -/
def loadCycle (len : Nat) (ea : State → Word) (s : State) : Host.Outcome State Fault Refusal :=
  .next ((s.beginInstr.loadA (s.beginInstr.read (ea s.beginInstr))).endInstr len)

/-- A store's cycle: advance, store to the address `ea` gives, advance past the operand (R131, R170). -/
def storeCycle (len : Nat) (ea : State → Word) (s : State) : Host.Outcome State Fault Refusal :=
  .next ((s.beginInstr.storeA (ea s.beginInstr)).endInstr len)

/-- `LDA #$nn` (R161). -/
def execLdaImmediate (d8 : Byte) (s : State) : Host.Outcome State Fault Refusal :=
  .next ((s.beginInstr.loadA d8).endInstr 2)

/-- `LDA $nn` (R162). -/
def execLdaZeroPage (d8 : Byte) (s : State) : Host.Outcome State Fault Refusal := loadCycle 2 (eaZeroPage d8) s

/-- `LDA $nn,X` (R163). -/
def execLdaZeroPageX (d8 : Byte) (s : State) : Host.Outcome State Fault Refusal := loadCycle 2 (eaZeroPageX d8) s

/-- `LDA $hhll` (R164). -/
def execLdaAbsolute (a16 : Word) (s : State) : Host.Outcome State Fault Refusal := loadCycle 3 (eaAbsolute a16) s

/-- `LDA $hhll,X` (R165). -/
def execLdaAbsoluteX (a16 : Word) (s : State) : Host.Outcome State Fault Refusal := loadCycle 3 (eaAbsoluteX a16) s

/-- `LDA $hhll,Y` (R166). -/
def execLdaAbsoluteY (a16 : Word) (s : State) : Host.Outcome State Fault Refusal := loadCycle 3 (eaAbsoluteY a16) s

/-- `LDA ($nn,X)` (R167). -/
def execLdaIndirectX (d8 : Byte) (s : State) : Host.Outcome State Fault Refusal := loadCycle 2 (eaIndirectX d8) s

/-- `LDA ($nn),Y` (R168). -/
def execLdaIndirectY (d8 : Byte) (s : State) : Host.Outcome State Fault Refusal := loadCycle 2 (eaIndirectY d8) s

/-- `STA $nn` (R171). -/
def execStaZeroPage (d8 : Byte) (s : State) : Host.Outcome State Fault Refusal := storeCycle 2 (eaZeroPage d8) s

/-- `STA $nn,X` (R172). -/
def execStaZeroPageX (d8 : Byte) (s : State) : Host.Outcome State Fault Refusal := storeCycle 2 (eaZeroPageX d8) s

/-- `STA $hhll` (R173). -/
def execStaAbsolute (a16 : Word) (s : State) : Host.Outcome State Fault Refusal := storeCycle 3 (eaAbsolute a16) s

/-- `STA $hhll,X` (R174). -/
def execStaAbsoluteX (a16 : Word) (s : State) : Host.Outcome State Fault Refusal := storeCycle 3 (eaAbsoluteX a16) s

/-- `STA $hhll,Y` (R175). -/
def execStaAbsoluteY (a16 : Word) (s : State) : Host.Outcome State Fault Refusal := storeCycle 3 (eaAbsoluteY a16) s

/-- `STA ($nn,X)` (R176). -/
def execStaIndirectX (d8 : Byte) (s : State) : Host.Outcome State Fault Refusal := storeCycle 2 (eaIndirectX d8) s

/-- `STA ($nn),Y` (R177). -/
def execStaIndirectY (d8 : Byte) (s : State) : Host.Outcome State Fault Refusal := storeCycle 2 (eaIndirectY d8) s

/-- The address an instruction stores to, in the state its handler runs in; none for an instruction that stores nothing. -/
def storeAddress (i : Instr) (s : State) : Option Word :=
  match i with
  | .staZeroPage d8 => some (eaZeroPage d8 s)
  | .staZeroPageX d8 => some (eaZeroPageX d8 s)
  | .staAbsolute a16 => some (eaAbsolute a16 s)
  | .staAbsoluteX a16 => some (eaAbsoluteX a16 s)
  | .staAbsoluteY a16 => some (eaAbsoluteY a16 s)
  | .staIndirectX d8 => some (eaIndirectX d8 s)
  | .staIndirectY d8 => some (eaIndirectY d8 s)
  | .brk => none
  | .tax => none
  | .inx => none
  | .ldaImmediate _ => none
  | .ldaZeroPage _ => none
  | .ldaZeroPageX _ => none
  | .ldaAbsolute _ => none
  | .ldaAbsoluteX _ => none
  | .ldaAbsoluteY _ => none
  | .ldaIndirectX _ => none
  | .ldaIndirectY _ => none

end Sys2Proof.Machine
end

