-- ==== Sys2Proof/Machine/Registers.lean ====
section
/-! DEFINITION. `TAX` and `INX` (spec/44_register_ops.md): the two handlers and the meaning of each row. -/

namespace Sys2Proof.Machine

/-- `X <- v`, flags from the new `X` (R185, R186). -/
def State.loadX (s : State) (v : Byte) : State := (s.setX v).updateZN v

/-- The handler of `TAX` (R185). -/
def State.transferAX (s : State) : State := s.loadX s.a

/-- The handler of `INX` (R186): modulo 256, no carry kept. -/
def State.incrementX (s : State) : State := s.loadX (s.x + 1)

/-- `TAX` (R185). -/
def execTax (s : State) : Host.Outcome State Fault Refusal := .next (s.beginInstr.transferAX.endInstr 1)

/-- `INX` (R186). -/
def execInx (s : State) : Host.Outcome State Fault Refusal := .next (s.beginInstr.incrementX.endInstr 1)

end Sys2Proof.Machine
end

