-- ==== Sys2Proof/Machine/HostOps.lean ====
section
/-! DEFINITION. Creation and the host's moves (spec/70_reset_and_hazards.md, spec/20_memory.md R58, spec/10_state.md R37).
They are functions on a state, not steps: the step itself only makes the host's `run()` call where the core is not
running (log entries 6 and 13). None reads the opcode table; Machine/Block.lean carries it beside the state. -/

namespace Sys2Proof.Machine

/-- Inside `run()` the host has no move (R66, D15). -/
def State.running (s : State) : Bool :=
  match s.runState with
  | .fetching | .dispatching => true
  | .idle | .halted | .faulted => false

/-- The state of a freshly created block, whatever its opcode table (R234, R36): memory all zero, Idle, no record; the registers hold FREE VALUES until the first
reset (log entry 5). `pcPre`: DESIGN CHOICE 0x0000, log entry 11. -/
def State.created : State :=
  { a := Config.createdA
    x := Config.createdX
    y := Config.createdY
    p := Config.createdP
    pc := Config.createdPC
    pcPre := 0x0000
    mem := []
    runState := .idle
    faultRecord := none
    wasReset := false }

/-- What `reset()` does (R230): registers and flags zero, `PC` from the vector, Idle, record emptied, memory kept. -/
def State.doReset (s : State) : State :=
  { s with
    a := 0x00, x := 0x00, y := 0x00, p := 0x00, pc := s.readWord Config.resetVec
    runState := .idle, faultRecord := none, wasReset := true }

/-- `reset()`, allowed in Idle, Halted and Faulted (R231). -/
def hostReset (s : State) : Host.Outcome State Fault Refusal :=
  if s.running then .refused .hostDuringRun else .next s.doReset

/-- Copy bytes to consecutive addresses (R236). -/
def State.copyIn (s : State) (addr : Word) : List Byte → State
  | [] => s
  | b :: bs => State.copyIn (s.write addr b) (addr + 1) bs

/-- What `load(bytes)` does: the image first, the reset vector second (R236, R237). -/
def State.doLoad (s : State) (image : List Byte) : State :=
  (s.copyIn Config.loadAddr image).writeWord Config.resetVec Config.loadAddr

/-- `load(bytes)`, allowed in Idle, Halted and Faulted, for at most 0x8000 bytes (R237, D9; log entry 7). -/
def hostLoad (image : List Byte) (s : State) : Host.Outcome State Fault Refusal :=
  if s.running then .refused .hostDuringRun
  else if Config.maxImage < image.length then .refused (.imageTooLong image.length)
  else .next (s.doLoad image)

/-- `mem_write(addr, byte)` (R58). -/
def hostMemWrite (addr : Word) (b : Byte) (s : State) : Host.Outcome State Fault Refusal :=
  if s.running then .refused .hostDuringRun else .next (s.write addr b)

/-- The entry of `run()`: allowed in Idle after a reset, it makes the run state Fetching (R130, R131, R240, D8). -/
def hostRun (s : State) : Host.Outcome State Fault Refusal :=
  match s.runState with
  | .idle => if s.wasReset then .next { s with runState := .fetching } else .refused .runBeforeReset
  | .fetching | .dispatching => .refused .hostDuringRun
  | .halted => .refused .runAfterHalt
  | .faulted => .refused .runAfterFault

/-- The host's moves (R12, R240). -/
inductive HostMove where
  | memWrite (addr : Word) (b : Byte)
  | load (image : List Byte)
  | reset
  | run
  deriving DecidableEq, Repr

/-- A host move made in a state. -/
def hostMove (m : HostMove) (s : State) : Host.Outcome State Fault Refusal :=
  match m with
  | .memWrite addr b => hostMemWrite addr b s
  | .load image => hostLoad image s
  | .reset => hostReset s
  | .run => hostRun s

/-- The registers and the fault record, as the host reads them (R37). -/
structure Registers where
  a : Byte
  x : Byte
  y : Byte
  p : Byte
  pc : Word
  faultRecord : Option CoreFault
  deriving DecidableEq, Repr

/-- What the host reads (R37, R240, D16; log entry 16): `registers` is none before the first reset, where they hold no
value (R36). -/
structure Observation where
  registers : Option Registers
  runState : RunState
  mem : Memory
  deriving DecidableEq, Repr

/-- Observation, allowed in Idle, Halted and Faulted (R37); none while the core is running. -/
def State.observe (s : State) : Option Observation :=
  if s.running then none
  else some
    { registers := if s.wasReset then some ⟨s.a, s.x, s.y, s.p, s.pc, s.faultRecord⟩ else none
      runState := s.runState
      mem := s.mem }

end Sys2Proof.Machine
end

