-- ==== Sys2Proof/Machine/Step.lean ====
section
/-! DEFINITION. One step. While the core is running (Fetching) it is one whole instruction (spec/42_execute_cycle.md
R142): the instruction decoded at `PC`, or the fault of an opcode byte without an entry. Where the core is not running
the only thing that can make it go on is the host's `run()`, and that is the step there (spec/70_reset_and_hazards.md
R240; log entry 6). The host's interface fixes `step : State → …`, so this is the step under the default opcode table;
the step under any table is `stepWith` in Machine/Cycle.lean (R8; log entry 1). -/

namespace Sys2Proof.Machine

/-- One step of the machine under the default opcode table. -/
def step (s : State) : Host.Outcome State Fault Refusal :=
  match s.runState with
  | .fetching =>
    match s.fetchInstr with
    | some i => exec i s
    | none => .next s.takeUnrecognized
  | .dispatching => .fault .midInstruction
  | .idle | .halted | .faulted => hostRun s

/-- `s` with an instruction stored where the next fetch reads, in run state Fetching: this stands for a `load`, a
`reset()` and the entry of `run()` (log entry 6). -/
def State.withFetchWord (s : State) (nbits w : Nat) : State := s.placeInstr nbits w

end Sys2Proof.Machine
end

