-- ==== Sys2Proof/Machine/Cycle.lean ====
section
/-! DEFINITION. The cycle as the spec writes it, with the opcode table a parameter (spec/42_execute_cycle.md R131,
spec/00_scope.md R8): the handler takes the mode the table gives, the resolver reads the operand from memory, and all
three faults can be raised (spec/60_exceptions.md R208). `step` in Machine/Step.lean decodes first and is meant to equal
`stepWith defaultOptab`; that equality is a statement of the certificate. What is above a step takes the table as well:
`coreWith` here, `run` in Machine/Run.lean, `Block` in Machine/Block.lean. -/

namespace Sys2Proof.Machine

/-- The handlers of step 4, with `PC` at the first operand byte (R131, R136). -/
def handle (h : Handler) (m : Mode) (s : State) : Except CoreFault State :=
  match h with
  | .lda =>
    match resolve m s with
    | .ok ea => .ok (s.loadA (s.read ea))
    | .error f => .error f
  | .sta =>
    match resolve m s with
    | .ok ea => .ok (s.storeA ea)
    | .error f => .error f
  | .tax => .ok s.transferAX
  | .inx => .ok s.incrementX
  | .brk => .ok s.halt

/-- One instruction cycle under the opcode table `tab` (R131). A table whose length disagrees with its mode still has the
meaning the rules give: step 5 follows `len`, the resolver follows the mode (R87, U11; log entry 17). -/
def cycle (tab : Optab) (s : State) : State :=
  match tab.lookup (s.read s.pc) with
  | none => s.takeUnrecognized
  | some row =>
    match handlerOf (s.read s.pc) with
    | none => s.beginInstr.raiseFault (.notYetImplemented (s.read s.pc))
    | some h =>
      match handle h row.mode s.beginInstr with
      | .error f => s.beginInstr.raiseFault f
      | .ok t => if h = .brk then t else t.endInstr row.len

/-- A step under the opcode table `tab`, a parameter of the step function (R142, spec/10_state.md R41): a cycle where the
core is running, else the host's `run()`. -/
def stepWith (tab : Optab) (s : State) : Host.Outcome State Fault Refusal :=
  match s.runState with
  | .fetching => .next (cycle tab s)
  | .dispatching => .fault .midInstruction
  | .idle | .halted | .faulted => hostRun s

/-- The machine under the opcode table `tab` (R8); `Sys2Proof.core` is the machine under the default one. -/
def coreWith (tab : Optab) : Host.Core :=
  { State := State, Fault := Fault, Refusal := Refusal, step := stepWith tab, reset := State.reset }

end Sys2Proof.Machine
end

