-- ==== Sys2Proof/Machine/Run.lean ====
section
/-! DEFINITION. `run()` under any opcode table and under fuel (spec/42_execute_cycle.md R130, R131; spec/60_exceptions.md
R207): the cycle repeated until the run state is Halted or Faulted. A run may never end (spec/70_reset_and_hazards.md
R246), so fuel bounds the evaluation and is no part of the machine (log entry 19). -/

namespace Sys2Proof.Machine

/-- What `run()` returns to the host (R207). -/
inductive RunResult where
  | halted
  | faulted (f : CoreFault)
  deriving DecidableEq, Repr

/-- The result a state shows, none unless its run state is Halted or Faulted (R207). -/
def State.runResult (s : State) : Option RunResult :=
  match s.runState with
  | .halted => some .halted
  | .faulted => s.faultRecord.map .faulted
  | .idle | .fetching | .dispatching => none

/-- The loop of `run()` under the table `tab` (R131): at most `fuel` cycles; none where the fuel ends before the run. -/
def runLoop (tab : Optab) : Nat → State → Option (RunResult × State)
  | 0, s => s.runResult.map fun r => (r, s)
  | n + 1, s =>
    match s.runResult with
    | some r => some (r, s)
    | none =>
      match stepWith tab s with
      | .next t => runLoop tab n t
      | .fault _ => none
      | .refused _ => none

/-- `run()` of a block with the table `tab` (R130, R131, R8). -/
def run (tab : Optab) (fuel : Nat) (s : State) : Option (RunResult × State) :=
  match hostRun s with
  | .next t => runLoop tab fuel t
  | .fault _ => none
  | .refused _ => none

/-- `load(bytes)`, then `reset()`, then the entry of `run()` (R238). -/
def loadResetRun (image : List Byte) (s : State) : Host.Outcome State Fault Refusal :=
  match hostLoad image s with
  | .next t =>
    match hostReset t with
    | .next u => hostRun u
    | .fault f => .fault f
    | .refused r => .refused r
  | .fault f => .fault f
  | .refused r => .refused r

/-- `load_and_run(bytes)` of a block with the table `tab` (R238). -/
def loadAndRun (tab : Optab) (fuel : Nat) (image : List Byte) (s : State) : Option (RunResult × State) :=
  match loadResetRun image s with
  | .next t => runLoop tab fuel t
  | .fault _ => none
  | .refused _ => none

end Sys2Proof.Machine
end

