-- ==== Sys2Proof/Machine/Block.lean ====
section
/-! DEFINITION. A block: the opcode table it is created with, and its state (spec/70_reset_and_hazards.md R234). The table
is no state (spec/10_state.md R41): every operation of the block reads it and none writes it. -/

namespace Sys2Proof.Machine

/-- A block with its opcode table (R234, R41). -/
structure Block where
  optab : Optab
  state : State
  deriving DecidableEq, Repr

/-- Creating a block with an opcode table (R234, R239); a table that is not well-formed is refused (D4, U11; log entry
17). -/
def createWith (tab : Optab) : Host.Outcome Block Fault Refusal :=
  if tab.wf then .next { optab := tab, state := State.created } else .refused .illFormedOptab

/-- The block after an operation on its state: the table is the one it was created with (R234). -/
def Block.answer (b : Block) (o : Host.Outcome State Fault Refusal) : Host.Outcome Block Fault Refusal :=
  match o with
  | .next t => .next { optab := b.optab, state := t }
  | .fault f => .fault f
  | .refused r => .refused r

/-- The block after a run. -/
def Block.returned (b : Block) (o : Option (RunResult × State)) : Option (RunResult × Block) :=
  o.map fun q => (q.1, { optab := b.optab, state := q.2 })

/-- A step of the block, under its own table (R8, R142). -/
def Block.step (b : Block) : Host.Outcome Block Fault Refusal := b.answer (stepWith b.optab b.state)

/-- A host move on the block (R12, R240). -/
def Block.move (m : HostMove) (b : Block) : Host.Outcome Block Fault Refusal := b.answer (hostMove m b.state)

/-- `run()` of the block, under its own table (R130, R131). -/
def Block.run (fuel : Nat) (b : Block) : Option (RunResult × Block) :=
  b.returned (Machine.run b.optab fuel b.state)

/-- `load_and_run(bytes)` of the block, under its own table (R238). -/
def Block.loadAndRun (fuel : Nat) (image : List Byte) (b : Block) : Option (RunResult × Block) :=
  b.returned (Machine.loadAndRun b.optab fuel image b.state)

end Sys2Proof.Machine
end

