-- ==== Sys2Proof/Safety.lean ====
section
/-! DEFINITION. The words the claims are made in: the invariant of the machine, the blocks a host can come to have,
and what it means that an instruction loaded or stored a byte. -/

namespace Sys2Proof.Machine

/-- The invariant of the machine: memory is in canonical form (log entry 14); no instruction is in progress between two
steps (spec/42_execute_cycle.md R142); the fault record is held exactly in Faulted (spec/10_state.md R34); and a block
that is not Idle has been reset (R130, R240). -/
def State.Inv (s : State) : Prop :=
  s.mem.wf ∧ s.runState ≠ .dispatching ∧ (s.faultRecord.isSome = true ↔ s.runState = .faulted) ∧
    (s.runState ≠ .idle → s.wasReset = true)

/-- What every block has once it has been reset, under any table: `Y` is 0x00, because only a reset writes it
(spec/10_state.md R23), and of `P` at most one of Z and N is set and no other bit (R30; positions: D2, log entry 2). -/
def State.ResetInv (s : State) : Prop :=
  s.wasReset = true → s.y = 0x00 ∧ (s.p = 0x00 ∨ s.p = 0x02 ∨ s.p = 0x80)

/-- The blocks a host can come to have: created with a table the creation accepts, then any steps under that table and any
host moves the spec allows (R12, R234, R240). -/
inductive Reachable : Block → Prop where
  | created {b : Block} (tab : Optab) : createWith tab = .next b → Reachable b
  | step {b c : Block} : Reachable b → b.step = .next c → Reachable c
  | move {b c : Block} (m : HostMove) : Reachable b → b.move m = .next c → Reachable c

/-- The status byte `q` has Z and N set from the byte `r`: Z exactly when `r` is 0x00, N bit 7 of `r`
(spec/41_flag_update.md R120, R121). It says nothing of the other six bits: `SixBitsKept` does. -/
def FlagsFrom (r q : Byte) : Prop := (q.getLsbD zBit = true ↔ r = 0x00) ∧ q.getLsbD nBit = r.getLsbD 7

/-- Bits 0 and 2 to 6 of the status byte are the same in `p` and `q` (R122, R30). -/
def SixBitsKept (p q : Byte) : Prop := ∀ k : Nat, k ≠ zBit → k ≠ nBit → q.getLsbD k = p.getLsbD k

/-- From `s` to `t` an instruction of `len` bytes loaded `v` into `A`: the byte, its flags, `PC` past the instruction and
the core ready to fetch (spec/43_load_store.md R160). -/
def LoadedA (s t : State) (v : Byte) (len : Nat) : Prop :=
  t.a = v ∧ FlagsFrom v t.p ∧ t.pc = s.pc + BitVec.ofNat 16 len ∧ t.runState = .fetching

/-- From `s` to `t` an instruction of `len` bytes stored `A` at `addr` and nowhere else, `PC` is past the instruction and
the core is ready to fetch (R170). -/
def StoredA (s t : State) (addr : Word) (len : Nat) : Prop :=
  t.read addr = s.a ∧ (∀ b : Word, b ≠ addr → t.read b = s.read b) ∧
    t.pc = s.pc + BitVec.ofNat 16 len ∧ t.runState = .fetching

/-- Every byte of memory reads the same in both states. -/
def SameMemory (s t : State) : Prop := ∀ b : Word, t.read b = s.read b

/-- The state a fault leaves (spec/60_exceptions.md R205): `PC` and `PCpre` one past the opcode byte, run state Faulted, the
record written, everything else as before. -/
def FaultEntry (s t : State) (f : CoreFault) : Prop :=
  t = { s with pc := s.pc + 1, pcPre := s.pc + 1, runState := .faulted, faultRecord := some f }

end Sys2Proof.Machine
end

