-- ==== Sys2Proof/Certificates/Slice0/Obligations.lean ====
section
/-! DEFINITION. The statements for the provers. A docstring names the rule of spec/ a statement formalises; where a clause
rests on a decision the spec marks as its own, or on a choice of the model, the docstring names the decision and the log
entry and the statement's basis is 'derived'. -/

open Sys2Proof Sys2Proof.Machine

/-! Encoding -/

/-- Decoding the encoding of any instruction, with any operand and any bytes after it, gives the instruction and those
bytes (30_encoding.md R80, R81, R83, R86; the table's bytes are decision D3, log entry 1). -/
def Obligations.DecodeOfEncodeGivesTheInstruction : Prop :=
  ∀ (i : Instr) (rest : List Byte), decode (encode i ++ rest) = .ok (i, rest)

/-- A byte string that decodes is the encoding of what it decodes to, so each string has one meaning and no bit is dropped
(R82, R83; decision D3, log entry 1). -/
def Obligations.EncodeOfDecodedGivesTheBytes : Prop :=
  ∀ (bs rest : List Byte) (i : Instr), decode bs = .ok (i, rest) → bs = encode i ++ rest

/-- Byte strings written out from the spec's encodings, one of each handler and format, and one unlisted opcode byte (R81,
R86, R88; decision D3, log entry 1). -/
def Obligations.WordsOfTheSpecDecode : Prop :=
  decode [0x00] = .ok (.brk, []) ∧
  decode [0xA9, 0x05, 0x00] = .ok (.ldaImmediate 0x05, [0x00]) ∧
  decode [0xBD, 0xFE, 0x02] = .ok (.ldaAbsoluteX 0x02FE, []) ∧
  decode [0x91, 0x86] = .ok (.staIndirectY 0x86, []) ∧
  decode [0x8D, 0x07, 0x80] = .ok (.staAbsolute 0x8007, []) ∧
  decode [0xAA, 0xE8] = .ok (.tax, [0xE8]) ∧
  decode [0xE8] = .ok (.inx, []) ∧
  decode [0xEA] = .error (.unrecognizedOpcode 0xEA)

/-- The default `OPTAB` and the handler wiring are the 18 rows of 30_encoding.md R86 and R89, every other byte has
neither, and the table is well-formed (decisions D3, D4, D23, log entry 1). -/
def Obligations.DefaultTableIsTheEighteenRows : Prop :=
  (∀ q ∈ ([(0x00, .brk, .noneAddressing, 1), (0xA9, .lda, .immediate, 2), (0xA5, .lda, .zeroPage, 2),
      (0xB5, .lda, .zeroPageX, 2), (0xAD, .lda, .absolute, 3), (0xBD, .lda, .absoluteX, 3),
      (0xB9, .lda, .absoluteY, 3), (0xA1, .lda, .indirectX, 2), (0xB1, .lda, .indirectY, 2),
      (0x85, .sta, .zeroPage, 2), (0x95, .sta, .zeroPageX, 2), (0x8D, .sta, .absolute, 3),
      (0x9D, .sta, .absoluteX, 3), (0x99, .sta, .absoluteY, 3), (0x81, .sta, .indirectX, 2),
      (0x91, .sta, .indirectY, 2), (0xAA, .tax, .noneAddressing, 1), (0xE8, .inx, .noneAddressing, 1)] :
      List (Byte × Handler × Mode × Nat)),
    Optab.lookup defaultOptab q.1 = some ⟨q.1, q.2.2.1, q.2.2.2⟩ ∧ handlerOf q.1 = some q.2.1) ∧
  (∀ b : Byte, b ∉ ([0x00, 0x81, 0x85, 0x8D, 0x91, 0x95, 0x99, 0x9D, 0xA1, 0xA5, 0xA9, 0xAA, 0xAD, 0xB1, 0xB5, 0xB9,
      0xBD, 0xE8] : List Byte) → Optab.lookup defaultOptab b = none ∧ handlerOf b = none) ∧
  Optab.wf defaultOptab = true

/-! The cycle -/

/-- Where the core is running and the bytes at `PC` decode to an instruction, the step is that instruction's `exec`; `exec`
is the whole cycle, both advances of `PC` included, so the step adds nothing around it (42_execute_cycle.md R131, R142;
the operand is read at decode, log entry 10). -/
def Obligations.StepRunsTheDecodedInstruction : Prop :=
  ∀ (s : State) (i : Instr) (rest : List Byte), s.runState = .fetching →
    decode [s.read s.pc, s.read (s.pc + 1), s.read (s.pc + 2)] = .ok (i, rest) → step s = exec i s

/-- The step, which decodes first, is the cycle of 42_execute_cycle.md R131 with its lookup, dispatch, resolver and two
advances, under the default table, in every state (decisions D3, D14, log entries 1, 9, 10). -/
def Obligations.StepIsTheCycleOfTheSpec : Prop :=
  ∀ s : State, step s = stepWith defaultOptab s

/-- Step 2 latches `PC` as the first advance left it (42_execute_cycle.md R133). Step 5 moves `PC` by the length less one where
it is still the latched one, leaves it alone otherwise, puts the core back in Fetching, and is not reached where the handler
halted or anything faulted, whatever the opcode table (R137). That `PC` is one past the opcode byte in Faulted is decision
D12 (60_exceptions.md R205, log entry 8); the wrap of `PC` is decision D5 (log entry 3). -/
def Obligations.LatchAndSecondAdvance : Prop :=
  (∀ s : State, s.beginInstr.pcPre = s.beginInstr.pc ∧ s.beginInstr.pcPre = s.pc + 1) ∧
  (∀ (s : State) (len : Nat), (s.endInstr len).runState = .fetching ∧
    (s.pc = s.pcPre → (s.endInstr len).pc = s.pc + (BitVec.ofNat 16 len - 1)) ∧
    (s.pc ≠ s.pcPre → (s.endInstr len).pc = s.pc)) ∧
  (∀ (tab : Optab) (s : State), (cycle tab s).runState ≠ .fetching → (cycle tab s).pc = s.pc + 1)

/-- Every instruction, in every state, answers a next state with `PC` past it, halted for `BRK` and fetching for the others
(42_execute_cycle.md R140; the wrap of `PC` is decision D5, log entry 3). -/
def Obligations.EveryInstructionCompletesPastItself : Prop :=
  ∀ (i : Instr) (s : State), ∃ t, exec i s = .next t ∧ t.pc = s.pc + BitVec.ofNat 16 i.len ∧
    t.runState = if i = .brk then .halted else .fetching

/-! LDA: one statement per row -/

/-- R161: `A9 nn` loads the byte that follows the opcode; at the level of the step, the byte at `PC + 1`. -/
def Obligations.LdaImmediateLoadsItsOperand : Prop :=
  (∀ (d8 : Byte) (rest : List Byte), decode (0xA9 :: d8 :: rest) = .ok (.ldaImmediate d8, rest)) ∧
  (∀ (d8 : Byte) (s : State), ∃ t, exec (.ldaImmediate d8) s = .next t ∧ LoadedA s t d8 2) ∧
  (∀ s : State, s.runState = .fetching → s.read s.pc = 0xA9 →
    ∃ t, step s = .next t ∧ LoadedA s t (s.read (s.pc + 1)) 2)

/-- R162: `A5 nn` loads the byte at zero-page address `nn` (opcode byte: G2, D3, log entry 1). -/
def Obligations.LdaZeroPageLoads : Prop :=
  (∀ (d8 : Byte) (rest : List Byte), decode (0xA5 :: d8 :: rest) = .ok (.ldaZeroPage d8, rest)) ∧
  ∀ (d8 : Byte) (s : State), ∃ t, exec (.ldaZeroPage d8) s = .next t ∧ LoadedA s t (s.read (zext16 d8)) 2

/-- R163: `B5 nn` loads the byte at zero-page address `nn +8 X` (opcode byte: G2, D3, log entry 1). -/
def Obligations.LdaZeroPageXLoads : Prop :=
  (∀ (d8 : Byte) (rest : List Byte), decode (0xB5 :: d8 :: rest) = .ok (.ldaZeroPageX d8, rest)) ∧
  ∀ (d8 : Byte) (s : State), ∃ t, exec (.ldaZeroPageX d8) s = .next t ∧ LoadedA s t (s.read (zext16 (d8 + s.x))) 2

/-- R164: `AD ll hh` loads the byte at `hhll` (opcode byte: G2, D3, log entry 1). -/
def Obligations.LdaAbsoluteLoads : Prop :=
  (∀ (ll hh : Byte) (rest : List Byte), decode (0xAD :: ll :: hh :: rest) = .ok (.ldaAbsolute (hh ++ ll), rest)) ∧
  ∀ (a16 : Word) (s : State), ∃ t, exec (.ldaAbsolute a16) s = .next t ∧ LoadedA s t (s.read a16) 3

/-- R165: `BD ll hh` loads the byte at `hhll +16 X` (opcode byte: G2, D3, log entry 1). -/
def Obligations.LdaAbsoluteXLoads : Prop :=
  (∀ (ll hh : Byte) (rest : List Byte), decode (0xBD :: ll :: hh :: rest) = .ok (.ldaAbsoluteX (hh ++ ll), rest)) ∧
  ∀ (a16 : Word) (s : State), ∃ t, exec (.ldaAbsoluteX a16) s = .next t ∧ LoadedA s t (s.read (a16 + zext16 s.x)) 3

/-- R166: `B9 ll hh` loads the byte at `hhll +16 Y` (opcode byte: G2, D3, log entry 1). -/
def Obligations.LdaAbsoluteYLoads : Prop :=
  (∀ (ll hh : Byte) (rest : List Byte), decode (0xB9 :: ll :: hh :: rest) = .ok (.ldaAbsoluteY (hh ++ ll), rest)) ∧
  ∀ (a16 : Word) (s : State), ∃ t, exec (.ldaAbsoluteY a16) s = .next t ∧ LoadedA s t (s.read (a16 + zext16 s.y)) 3

/-- R167: `A1 nn` loads the byte at the address stored at zero-page locations `nn +8 X` and `nn +8 X +8 1` (opcode byte: G2,
D3, log entry 1). -/
def Obligations.LdaIndirectXLoads : Prop :=
  (∀ (d8 : Byte) (rest : List Byte), decode (0xA1 :: d8 :: rest) = .ok (.ldaIndirectX d8, rest)) ∧
  ∀ (d8 : Byte) (s : State), ∃ t, exec (.ldaIndirectX d8) s = .next t ∧
    LoadedA s t (s.read (s.read (zext16 (d8 + s.x + 1)) ++ s.read (zext16 (d8 + s.x)))) 2

/-- R168: `B1 nn` loads the byte at the address stored at zero-page locations `nn` and `nn +8 1`, plus `Y` (opcode byte: G2,
D3, log entry 1). -/
def Obligations.LdaIndirectYLoads : Prop :=
  (∀ (d8 : Byte) (rest : List Byte), decode (0xB1 :: d8 :: rest) = .ok (.ldaIndirectY d8, rest)) ∧
  ∀ (d8 : Byte) (s : State), ∃ t, exec (.ldaIndirectY d8) s = .next t ∧
    LoadedA s t (s.read ((s.read (zext16 (d8 + 1)) ++ s.read (zext16 d8)) + zext16 s.y)) 2

/-! STA: one statement per row -/

/-- R171: `85 nn` stores `A` at zero-page address `nn` (opcode byte and semantics: G3, G4, D3, D19, log entries 1, 12). -/
def Obligations.StaZeroPageStores : Prop :=
  (∀ (d8 : Byte) (rest : List Byte), decode (0x85 :: d8 :: rest) = .ok (.staZeroPage d8, rest)) ∧
  ∀ (d8 : Byte) (s : State), ∃ t, exec (.staZeroPage d8) s = .next t ∧ StoredA s t (zext16 d8) 2

/-- R172: `95 nn` stores `A` at zero-page address `nn +8 X` (G3, G4, D3, D19, log entries 1, 12). -/
def Obligations.StaZeroPageXStores : Prop :=
  (∀ (d8 : Byte) (rest : List Byte), decode (0x95 :: d8 :: rest) = .ok (.staZeroPageX d8, rest)) ∧
  ∀ (d8 : Byte) (s : State), ∃ t, exec (.staZeroPageX d8) s = .next t ∧ StoredA s t (zext16 (d8 + s.x)) 2

/-- R173: `8D ll hh` stores `A` at `hhll` (G3, G4, D3, D19, log entries 1, 12). -/
def Obligations.StaAbsoluteStores : Prop :=
  (∀ (ll hh : Byte) (rest : List Byte), decode (0x8D :: ll :: hh :: rest) = .ok (.staAbsolute (hh ++ ll), rest)) ∧
  ∀ (a16 : Word) (s : State), ∃ t, exec (.staAbsolute a16) s = .next t ∧ StoredA s t a16 3

/-- R174: `9D ll hh` stores `A` at `hhll +16 X` (G3, G4, D3, D19, log entries 1, 12). -/
def Obligations.StaAbsoluteXStores : Prop :=
  (∀ (ll hh : Byte) (rest : List Byte), decode (0x9D :: ll :: hh :: rest) = .ok (.staAbsoluteX (hh ++ ll), rest)) ∧
  ∀ (a16 : Word) (s : State), ∃ t, exec (.staAbsoluteX a16) s = .next t ∧ StoredA s t (a16 + zext16 s.x) 3

/-- R175: `99 ll hh` stores `A` at `hhll +16 Y` (G3, G4, D3, D19, log entries 1, 12). -/
def Obligations.StaAbsoluteYStores : Prop :=
  (∀ (ll hh : Byte) (rest : List Byte), decode (0x99 :: ll :: hh :: rest) = .ok (.staAbsoluteY (hh ++ ll), rest)) ∧
  ∀ (a16 : Word) (s : State), ∃ t, exec (.staAbsoluteY a16) s = .next t ∧ StoredA s t (a16 + zext16 s.y) 3

/-- R176: `81 nn` stores `A` at the address stored at zero-page locations `nn +8 X` and `nn +8 X +8 1` (G3, G4, D3, D19, log
entries 1, 12). -/
def Obligations.StaIndirectXStores : Prop :=
  (∀ (d8 : Byte) (rest : List Byte), decode (0x81 :: d8 :: rest) = .ok (.staIndirectX d8, rest)) ∧
  ∀ (d8 : Byte) (s : State), ∃ t, exec (.staIndirectX d8) s = .next t ∧
    StoredA s t (s.read (zext16 (d8 + s.x + 1)) ++ s.read (zext16 (d8 + s.x))) 2

/-- R177: `91 nn` stores `A` at the address stored at zero-page locations `nn` and `nn +8 1`, plus `Y` (G3, G4, D3, D19, log
entries 1, 12). -/
def Obligations.StaIndirectYStores : Prop :=
  (∀ (d8 : Byte) (rest : List Byte), decode (0x91 :: d8 :: rest) = .ok (.staIndirectY d8, rest)) ∧
  ∀ (d8 : Byte) (s : State), ∃ t, exec (.staIndirectY d8) s = .next t ∧
    StoredA s t ((s.read (zext16 (d8 + 1)) ++ s.read (zext16 d8)) + zext16 s.y) 2

/-! TAX, INX, BRK -/

/-- R185: `AA` copies `A` to `X`, sets Z and N from it, leaves `A`, memory and the other six bits of `P` alone, and `PC` is
one past the opcode byte. -/
def Obligations.TaxCopiesAToX : Prop :=
  (∀ rest : List Byte, decode (0xAA :: rest) = .ok (.tax, rest)) ∧
  ∀ s : State, ∃ t, exec .tax s = .next t ∧ t.x = s.a ∧ t.a = s.a ∧ FlagsFrom s.a t.p ∧ SixBitsKept s.p t.p ∧
    SameMemory s t ∧ t.pc = s.pc + 1 ∧ t.runState = .fetching

/-- R186: `E8` adds one to `X` modulo 256, sets Z and N from the new `X` (Z exactly when the old `X` was 0xFF), leaves `A`,
`Y`, memory and the other six bits of `P` alone, and `PC` is one past the opcode byte. -/
def Obligations.InxIncrementsX : Prop :=
  (∀ rest : List Byte, decode (0xE8 :: rest) = .ok (.inx, rest)) ∧
  ∀ s : State, ∃ t, exec .inx s = .next t ∧ t.x.toNat = (s.x.toNat + 1) % 256 ∧ FlagsFrom t.x t.p ∧
    (t.flagZ = true ↔ s.x = 0xFF) ∧ SixBitsKept s.p t.p ∧ t.a = s.a ∧ t.y = s.y ∧ SameMemory s t ∧
    t.pc = s.pc + 1 ∧ t.runState = .fetching

/-- `00` halts, with `PC` one past it, and changes no register, no bit of `P`, no byte of memory and no other state but the
latch; Halted is left by no step and by no host move but `reset()`; and `reset()` then `run()` on memory that nothing has
written halts at once with `PC = 0x0001` and the registers zero (45_halt.md R195). That no step answers a next state in
Halted is the refusal of `run()` there (decision D8) and the model's choice that a step is `run()` there (log entry 6). -/
def Obligations.BrkHaltsAndNothingElse : Prop :=
  (∀ rest : List Byte, decode (0x00 :: rest) = .ok (.brk, rest)) ∧
  (∀ s : State, ∃ t, exec .brk s = .next t ∧ t.runState = .halted ∧ t.pc = s.pc + 1 ∧ t.a = s.a ∧ t.x = s.x ∧
    t.y = s.y ∧ t.p = s.p ∧ SameMemory s t ∧ t.faultRecord = s.faultRecord ∧ t.wasReset = s.wasReset) ∧
  (∀ s : State, s.runState = .halted → (∀ t, step s ≠ .next t) ∧
    ∀ (m : HostMove) (t : State), hostMove m s = .next t → m = .reset ∨ t.runState = .halted) ∧
  (∃ r u v : State, hostReset State.created = .next r ∧ hostRun r = .next u ∧ step u = .next v ∧
    v.runState = .halted ∧ v.pc = 0x0001 ∧ v.a = 0x00 ∧ v.x = 0x00 ∧ v.y = 0x00 ∧ v.p = 0x00)

/-! Frames -/

/-- What every `LDA` leaves unchanged: `X`, `Y`, the six bits of `P` other than Z and N, memory, the fault record and the
reset bit; the latch takes the value every instruction gives it (43_load_store.md section 1, R160, R178). -/
def Obligations.FrameOfLoads : Prop :=
  ∀ (i : Instr) (s t : State), i.handler = .lda → exec i s = .next t →
    t.x = s.x ∧ t.y = s.y ∧ SixBitsKept s.p t.p ∧ SameMemory s t ∧ t.faultRecord = s.faultRecord ∧
      t.wasReset = s.wasReset ∧ t.pcPre = s.pc + 1

/-- What every `STA` leaves unchanged: `A`, `X`, `Y`, all of `P`, every byte of memory but the one at the address the form
stores to, the fault record and the reset bit (43_load_store.md section 2, R170, R178; decision D19, log entry 12). -/
def Obligations.FrameOfStores : Prop :=
  ∀ (i : Instr) (s t : State), i.handler = .sta → exec i s = .next t →
    t.a = s.a ∧ t.x = s.x ∧ t.y = s.y ∧ t.p = s.p ∧ t.faultRecord = s.faultRecord ∧ t.wasReset = s.wasReset ∧
      t.pcPre = s.pc + 1 ∧
      ∀ ea : Word, storeAddress i s.beginInstr = some ea → ∀ b : Word, b ≠ ea → t.read b = s.read b

/-- What `TAX` and `INX` leave unchanged: `A`, `Y`, the six bits of `P` other than Z and N, memory, the fault record and the
reset bit (44_register_ops.md, R185, R186). -/
def Obligations.FrameOfRegisterInstructions : Prop :=
  ∀ (i : Instr) (s t : State), i.handler = .tax ∨ i.handler = .inx → exec i s = .next t →
    t.a = s.a ∧ t.y = s.y ∧ SixBitsKept s.p t.p ∧ SameMemory s t ∧ t.faultRecord = s.faultRecord ∧
      t.wasReset = s.wasReset ∧ t.pcPre = s.pc + 1

/-! Handlers and the resolver, under any opcode table -/

/-- R160: under any opcode table, a byte wired to `LDA` whose row has an operand mode loads the byte at the resolved address,
with `A`, Z, N and `PC` as the rule says and `X`, `Y`, memory and the other six bits of `P` unchanged; with mode
NoneAddressing it raises UnsupportedAddressingMode before `A`, `P` or memory changes. -/
def Obligations.LdaHandlerUnderAnyTable : Prop :=
  ∀ (tab : Optab) (s : State) (row : OptabRow), s.runState = .fetching → tab.lookup (s.read s.pc) = some row →
    handlerOf (s.read s.pc) = some .lda →
    (row.mode ≠ .noneAddressing → ∃ (ea : Word) (t : State), resolve row.mode s.beginInstr = .ok ea ∧
      stepWith tab s = .next t ∧ LoadedA s t (s.read ea) row.len ∧ t.x = s.x ∧ t.y = s.y ∧ SixBitsKept s.p t.p ∧
      SameMemory s t) ∧
    (row.mode = .noneAddressing → ∃ t : State, stepWith tab s = .next t ∧ t.runState = .faulted ∧
      t.faultRecord = some (.unsupportedAddressingMode .noneAddressing) ∧ t.a = s.a ∧ t.p = s.p ∧ SameMemory s t)

/-- R170: under any opcode table, a byte wired to `STA` whose row has an operand mode stores `A` at the resolved address and
changes no register and no bit of `P`; with mode NoneAddressing it raises UnsupportedAddressingMode before memory changes
(semantics of the store: decision D19, log entry 12). -/
def Obligations.StaHandlerUnderAnyTable : Prop :=
  ∀ (tab : Optab) (s : State) (row : OptabRow), s.runState = .fetching → tab.lookup (s.read s.pc) = some row →
    handlerOf (s.read s.pc) = some .sta →
    (row.mode ≠ .noneAddressing → ∃ (ea : Word) (t : State), resolve row.mode s.beginInstr = .ok ea ∧
      stepWith tab s = .next t ∧ StoredA s t ea row.len ∧ t.a = s.a ∧ t.x = s.x ∧ t.y = s.y ∧ t.p = s.p) ∧
    (row.mode = .noneAddressing → ∃ t : State, stepWith tab s = .next t ∧ t.runState = .faulted ∧
      t.faultRecord = some (.unsupportedAddressingMode .noneAddressing) ∧ t.a = s.a ∧ t.p = s.p ∧ SameMemory s t)

/-- The effective address of each of the ten modes, written out (40_addressing_modes.md section 2, R102 to R111; the second
operand byte of a word at 0xFFFF is decision D6, log entry 4). -/
def Obligations.ResolverGivesEachModesAddress : Prop :=
  ∀ s : State,
    resolve .immediate s = .ok s.pc ∧
    resolve .zeroPage s = .ok (zext16 (s.read s.pc)) ∧
    resolve .zeroPageX s = .ok (zext16 (s.read s.pc + s.x)) ∧
    resolve .zeroPageY s = .ok (zext16 (s.read s.pc + s.y)) ∧
    resolve .absolute s = .ok (s.read (s.pc + 1) ++ s.read s.pc) ∧
    resolve .absoluteX s = .ok ((s.read (s.pc + 1) ++ s.read s.pc) + zext16 s.x) ∧
    resolve .absoluteY s = .ok ((s.read (s.pc + 1) ++ s.read s.pc) + zext16 s.y) ∧
    resolve .indirectX s = .ok (s.read (zext16 (s.read s.pc + s.x + 1)) ++ s.read (zext16 (s.read s.pc + s.x))) ∧
    resolve .indirectY s =
      .ok ((s.read (zext16 (s.read s.pc + 1)) ++ s.read (zext16 (s.read s.pc))) + zext16 s.y) ∧
    resolve .noneAddressing s = .error (.unsupportedAddressingMode .noneAddressing)

/-- R111, R202: resolving NoneAddressing raises UnsupportedAddressingMode; only `LDA` and `STA` can be made to raise it, and
only with that mode; it is raised before anything is written; under the default table no step raises it. -/
def Obligations.ResolvingNoneAddressingIsFatal : Prop :=
  (∀ s : State, resolve .noneAddressing s = .error (.unsupportedAddressingMode .noneAddressing)) ∧
  (∀ (h : Handler) (m : Mode) (s : State) (f : CoreFault), handle h m s = .error f ↔
    (h = .lda ∨ h = .sta) ∧ m = .noneAddressing ∧ f = .unsupportedAddressingMode .noneAddressing) ∧
  (∀ (tab : Optab) (s : State) (row : OptabRow) (h : Handler), s.runState = .fetching →
    tab.lookup (s.read s.pc) = some row → handlerOf (s.read s.pc) = some h → h = .lda ∨ h = .sta →
    row.mode = .noneAddressing → ∃ t : State, stepWith tab s = .next t ∧ t.runState = .faulted ∧
      t.faultRecord = some (.unsupportedAddressingMode .noneAddressing) ∧
      t.a = s.a ∧ t.x = s.x ∧ t.y = s.y ∧ t.p = s.p ∧ SameMemory s t) ∧
  (∀ (s t : State) (m : Mode), step s = .next t → t.runState = .faulted →
    t.faultRecord ≠ some (.unsupportedAddressingMode m))

/-- The zero-page modes never produce an address with a nonzero high byte, even where the sum exceeds 255
(40_addressing_modes.md section 2, R103 to R105; 95_test_vectors.md S9). -/
def Obligations.ZeroPageModesStayInPageZero : Prop :=
  ∀ (s : State) (m : Mode) (ea : Word), m = .zeroPage ∨ m = .zeroPageX ∨ m = .zeroPageY → resolve m s = .ok ea →
    hiByte ea = 0x00

/-- R70: the pointer read of the indirect modes is two byte reads whose second address wraps in page 0; it is a word read for
every pointer but 0x00FF, where the high byte comes from 0x0000 and a word read would take it from 0x0100. -/
def Obligations.IndirectPointerReadIsNotAWordRead : Prop :=
  ∀ s : State, (∀ ptr : Byte, ptr ≠ 0xFF → zeroPagePointer ptr s = s.readWord (zext16 ptr)) ∧
    zeroPagePointer 0xFF s = s.read 0x0000 ++ s.read 0x00FF ∧ s.readWord 0x00FF = s.read 0x0100 ++ s.read 0x00FF

/-! Memory -/

/-- R53: a byte written is the byte then read there, and every other location is unchanged. -/
def Obligations.ByteWriteIsReadBackAndAlone : Prop :=
  ∀ (s : State) (addr : Word) (b : Byte), (s.write addr b).read addr = b ∧
    ∀ k : Word, k ≠ addr → (s.write addr b).read k = s.read k

/-- A word written is read back at every address, 0xFFFF included, low byte at the address and high byte at the next one
modulo 65536, and no third byte changes (20_memory.md section 2, R54, R55, R57; decision D6, log entry 4). -/
def Obligations.WordWriteRoundTrip : Prop :=
  ∀ (s : State) (addr w : Word), (s.writeWord addr w).readWord addr = w ∧
    (s.writeWord addr w).read addr = w.extractLsb' 0 8 ∧ (s.writeWord addr w).read (addr + 1) = w.extractLsb' 8 8 ∧
    ∀ k : Word, k ≠ addr → k ≠ addr + 1 → (s.writeWord addr w).read k = s.read k

/-- After any `STA`, a load from the address it stored to loads what it stored (20_memory.md section 8, R64; decision D19,
log entry 12). -/
def Obligations.LoadSeesTheLatestStore : Prop :=
  ∀ (i : Instr) (s t : State) (ea : Word), i.handler = .sta → storeAddress i s.beginInstr = some ea →
    exec i s = .next t → ∃ u, exec (.ldaAbsolute ea) t = .next u ∧ u.a = s.a

/-- The fetch after any `STA` reads memory as the store left it: the stored byte where the store went, the old bytes
elsewhere (20_memory.md section 8, R68; decision D19, log entry 12). -/
def Obligations.NextFetchSeesTheStore : Prop :=
  ∀ (i : Instr) (s t : State) (ea : Word), i.handler = .sta → storeAddress i s.beginInstr = some ea →
    exec i s = .next t →
    t.fetchInstr = decodeBytes (if t.pc = ea then s.a else s.read t.pc)
      (if t.pc + 1 = ea then s.a else s.read (t.pc + 1)) (if t.pc + 2 = ea then s.a else s.read (t.pc + 2))

/-- R51: every byte is 0x00 at creation; after that memory changes only by a `STA`, by `load` or by `mem_write`: no other
step changes it, `reset()` and the entry of `run()` among them. -/
def Obligations.MemoryChangesOnlyByStoresLoadsAndHostWrites : Prop :=
  (∀ b : Word, State.created.read b = 0x00) ∧
  (∀ s t : State, step s = .next t → SameMemory s t ∨
    ∃ i, s.runState = .fetching ∧ s.fetchInstr = some i ∧ i.handler = .sta) ∧
  (∀ (m : HostMove) (s t : State), hostMove m s = .next t → SameMemory s t ∨
    (∃ addr b, m = .memWrite addr b) ∨ ∃ image, m = .load image)

/-- Two memories in canonical form that read the same at each of the 65536 addresses are equal data: the model's form of
memory hides nothing (20_memory.md section 1, R50; the canonical form is the model's choice, log entry 14). -/
def Obligations.MemoriesThatReadAlikeAreEqual : Prop :=
  ∀ m m' : Memory, m.wf → Memory.wf m' → (∀ addr : Word, m.read addr.toNat = m'.read addr.toNat) → m = m'

/-! Flags -/

/-- The flag updater on the packed byte, with its outcome table: Z and N from the byte, never both, the six other bits kept
(41_flag_update.md, R120 to R122; the positions are decision D2, log entry 2). -/
def Obligations.FlagUpdaterOnThePackedByte : Prop :=
  ∀ r p : Byte, updateZN r p = (p &&& 0x7D) ||| (if r = 0x00 then 0x02 else 0x00) ||| (r &&& 0x80) ∧
    FlagsFrom r (updateZN r p) ∧ SixBitsKept p (updateZN r p) ∧
    ¬((updateZN r p).getLsbD zBit = true ∧ (updateZN r p).getLsbD nBit = true)

/-- R28, R29: Z and N are set from the loaded byte by `LDA` and from the new `X` by `TAX` and `INX`, left as they were by `STA`
and `BRK`, 0 after reset, and read by no instruction: with another status byte an instruction does the same to everything
but the status byte. -/
def Obligations.ZeroAndNegativeFlags : Prop :=
  (∀ (i : Instr) (s t : State), exec i s = .next t →
    (i.handler = .lda → (t.flagZ = true ↔ t.a = 0x00) ∧ t.flagN = t.a.getLsbD 7) ∧
    (i.handler = .tax ∨ i.handler = .inx → (t.flagZ = true ↔ t.x = 0x00) ∧ t.flagN = t.x.getLsbD 7) ∧
    (i.handler = .sta ∨ i.handler = .brk → t.flagZ = s.flagZ ∧ t.flagN = s.flagN)) ∧
  (∀ s t : State, hostReset s = .next t → t.flagZ = false ∧ t.flagN = false) ∧
  (∀ (i : Instr) (s t : State) (q : Byte), exec i s = .next t →
    ∃ u, exec i { s with p := q } = .next u ∧ { u with p := t.p } = t)

/-! Invariants -/

/-- Every step keeps the invariant of the machine: canonical memory, no instruction in progress between steps, a fault record
exactly in Faulted, no running core that was never reset (10_state.md R33, R34; 42_execute_cycle.md R130, R142; decisions
D8, D13, log entries 6, 8, 14). -/
def Obligations.StepKeepsTheInvariant : Prop :=
  ∀ s t : State, s.Inv → step s = .next t → t.Inv

/-- The invariant holds right after reset and right after creation (R38, R234; log entries 5, 11). -/
def Obligations.ResetAndCreationMeetTheInvariant : Prop :=
  State.reset.Inv ∧ State.created.Inv

/-- Every host move keeps the invariant (70_reset_and_hazards.md R240; decisions D8, D9, log entries 6, 7, 13). -/
def Obligations.HostMovesKeepTheInvariant : Prop :=
  ∀ (m : HostMove) (s t : State), s.Inv → hostMove m s = .next t → t.Inv

/-- No step changes `Y` or one of the six bits of `P` other than Z and N, in any state (10_state.md R23, R30). -/
def Obligations.StepKeepsYAndTheSixBits : Prop :=
  ∀ s t : State, step s = .next t → t.y = s.y ∧ SixBitsKept s.p t.p

/-- Every block a host can come to have, with whatever table it was created, loaded and poked, has a well-formed table and
meets the invariant of the machine; and once it has been reset, `Y` is 0x00 and `P` is 0x00, 0x02 or 0x80 (10_state.md R23,
R30, R41; 70_reset_and_hazards.md R234; positions of the flags: decision D2, log entry 2; refusal of ill-formed tables:
decision D4, log entry 17; run states and record: D8, D13, log entries 6, 8; canonical memory: log entry 14). -/
def Obligations.AfterAResetYIsZeroAndPHasThreeValues : Prop :=
  ∀ b : Block, Reachable b → b.optab.wf = true ∧ b.state.Inv ∧
    (b.state.wasReset = true → b.state.y = 0x00 ∧ (b.state.p = 0x00 ∨ b.state.p = 0x02 ∨ b.state.p = 0x80))

/-- Every step, under the default table and under any other, keeps this: once the block has been reset, `Y` is 0x00 and `P` is
0x00, 0x02 or 0x80. It holds right after reset and right after creation, and every host move keeps it too (10_state.md R23,
R30; 41_flag_update.md R122; positions of the flags: decision D2, log entry 2). -/
def Obligations.StepKeepsYZeroAndTheThreeValuesOfP : Prop :=
  (∀ s t : State, s.ResetInv → step s = .next t → t.ResetInv) ∧
  (∀ (tab : Optab) (s t : State), s.ResetInv → stepWith tab s = .next t → t.ResetInv) ∧
  (∀ (m : HostMove) (s t : State), s.ResetInv → hostMove m s = .next t → t.ResetInv) ∧
  State.reset.ResetInv ∧ State.created.ResetInv

/-! Faults and runs -/

/-- The three faults, in the order they are raised, and the state each leaves, under any opcode table (60_exceptions.md R200,
R205, R206, R208; decisions D12, D13, log entry 8). -/
def Obligations.FaultsByPriorityAndTheStateTheyLeave : Prop :=
  ∀ (tab : Optab) (s : State), s.runState = .fetching →
    (tab.lookup (s.read s.pc) = none →
      ∃ t, stepWith tab s = .next t ∧ FaultEntry s t (.unrecognizedOpcode (s.read s.pc))) ∧
    (∀ row, tab.lookup (s.read s.pc) = some row → handlerOf (s.read s.pc) = none →
      ∃ t, stepWith tab s = .next t ∧ FaultEntry s t (.notYetImplemented (s.read s.pc))) ∧
    (∀ row h, tab.lookup (s.read s.pc) = some row → handlerOf (s.read s.pc) = some h → h.resolves = true →
      row.mode = .noneAddressing →
      ∃ t, stepWith tab s = .next t ∧ FaultEntry s t (.unsupportedAddressingMode .noneAddressing))

/-- A cycle raises UnrecognizedOpcode, with the byte, exactly when the table has no entry for the opcode byte just fetched;
under the default table, exactly for the 238 bytes that are not among the 18 (60_exceptions.md R201; the 18 bytes of the
default table are decision D3, log entry 1). -/
def Obligations.UnrecognizedOpcodeExactlyWhereNoEntry : Prop :=
  (∀ (tab : Optab) (s : State) (b : Byte), s.runState = .fetching →
    ((∃ t, stepWith tab s = .next t ∧ t.runState = .faulted ∧ t.faultRecord = some (.unrecognizedOpcode b)) ↔
      tab.lookup (s.read s.pc) = none ∧ b = s.read s.pc)) ∧
  (∀ s : State, s.runState = .fetching →
    ((∃ t, step s = .next t ∧ t.runState = .faulted ∧ t.faultRecord = some (.unrecognizedOpcode (s.read s.pc))) ↔
      s.read s.pc ∉ ([0x00, 0x81, 0x85, 0x8D, 0x91, 0x95, 0x99, 0x9D, 0xA1, 0xA5, 0xA9, 0xAA, 0xAD, 0xB1, 0xB5, 0xB9,
        0xBD, 0xE8] : List Byte)))

/-- A step of a running core always answers a next state; the run goes on exactly at the 17 opcode bytes that are listed and
do not halt, and halts exactly at 0x00 (70_reset_and_hazards.md R246; 42_execute_cycle.md R138; decision D3, log entry 1). -/
def Obligations.RunGoesOnExactlyAtTheSeventeenBytes : Prop :=
  ∀ s : State, s.runState = .fetching → ∃ t, step s = .next t ∧
    (t.runState = .fetching ↔
      s.read s.pc ∈ ([0x81, 0x85, 0x8D, 0x91, 0x95, 0x99, 0x9D, 0xA1, 0xA5, 0xA9, 0xAA, 0xAD, 0xB1, 0xB5, 0xB9, 0xBD,
        0xE8] : List Byte)) ∧
    (t.runState = .halted ↔ s.read s.pc = 0x00)

/-- Under any opcode table, `run()` is allowed exactly in Idle after a reset, makes the run state Fetching, and returns exactly
where some number of cycles, each but the last leaving the core Fetching, ends with a result to return; it returns in
exactly two ways, Halted or Faulted with the recorded fault, and the same with more fuel; under the default table the only
fault it returns is UnrecognizedOpcode (42_execute_cycle.md R130, R131; 60_exceptions.md R202, R203, R207; the precondition
is decision D8, log entry 6; the default table D3, log entry 1; the fuel is the model's, log entry 19). -/
def Obligations.RunReturnsHaltedOrFaulted : Prop :=
  (∀ (tab : Optab) (n : Nat) (s t : State) (r : RunResult), run tab n s = some (r, t) ↔
    s.runState = .idle ∧ s.wasReset = true ∧ ∃ k : Nat, k ≤ n ∧
      (∀ j : Nat, j < k → ((cycle tab)^[j] { s with runState := .fetching }).runState = .fetching) ∧
      t = (cycle tab)^[k] { s with runState := .fetching } ∧ t.runResult = some r) ∧
  (∀ (tab : Optab) (n : Nat) (s t : State) (r : RunResult), run tab n s = some (r, t) →
    ((r = .halted ∧ t.runState = .halted) ∨
      ∃ f, r = .faulted f ∧ t.runState = .faulted ∧ t.faultRecord = some f) ∧
    ∀ k : Nat, run tab (n + k) s = some (r, t)) ∧
  (∀ (n : Nat) (s t : State) (f : CoreFault), run defaultOptab n s = some (.faulted f, t) →
    ∃ b : Byte, f = .unrecognizedOpcode b)

/-! The host's moves -/

/-- Which host moves are allowed in which run state, and that no step leaves Halted or Faulted (70_reset_and_hazards.md R237,
R240; 60_exceptions.md R215; decisions D8, D9, D15, log entries 6, 7, 13). -/
def Obligations.HostMovesByRunState : Prop :=
  ∀ s : State,
    (∀ addr b, (∃ t, hostMove (.memWrite addr b) s = .next t) ↔
      s.runState = .idle ∨ s.runState = .halted ∨ s.runState = .faulted) ∧
    (∀ image, (∃ t, hostMove (.load image) s = .next t) ↔
      (s.runState = .idle ∨ s.runState = .halted ∨ s.runState = .faulted) ∧ image.length ≤ 0x8000) ∧
    ((∃ t, hostMove .reset s = .next t) ↔ s.runState = .idle ∨ s.runState = .halted ∨ s.runState = .faulted) ∧
    ((∃ t, hostMove .run s = .next t) ↔ s.runState = .idle ∧ s.wasReset = true) ∧
    (s.runState = .halted ∨ s.runState = .faulted → ∀ t, step s ≠ .next t)

/-- What `reset()` leaves, and that the reset of a freshly created block is `State.reset` (70_reset_and_hazards.md R230;
10_state.md R38; the run state and the emptied record are decision D8, log entries 6, 11). -/
def Obligations.ResetLeavesItsValues : Prop :=
  (∀ s t : State, hostReset s = .next t → t.a = 0x00 ∧ t.x = 0x00 ∧ t.y = 0x00 ∧ t.p = 0x00 ∧
    t.pc = s.read 0xFFFD ++ s.read 0xFFFC ∧ SameMemory s t ∧ t.runState = .idle ∧ t.faultRecord = none) ∧
  hostReset State.created = .next State.reset

/-- R231: `reset()` is allowed in Idle, Halted and Faulted and not during a run, a second reset changes nothing, and no step
is a reset (none leads to Idle). R232: it never fails there; on memory that is all zero it gives `PC = 0x0000`, and the run
that follows fetches a `BRK` and halts with `PC = 0x0001`. -/
def Obligations.ResetNeverFailsAndRepeats : Prop :=
  (∀ s : State, s.runState = .idle ∨ s.runState = .halted ∨ s.runState = .faulted →
    ∃ t, hostReset s = .next t ∧ hostReset t = .next t) ∧
  (∀ s : State, s.runState = .fetching ∨ s.runState = .dispatching → ∀ t, hostReset s ≠ .next t) ∧
  (∀ s t : State, step s = .next t → t.runState ≠ .idle) ∧
  (∀ s t : State, hostReset s = .next t → (∀ b : Word, s.read b = 0x00) → t.pc = 0x0000 ∧
    ∃ u v, hostRun t = .next u ∧ step u = .next v ∧ v.runState = .halted ∧ v.pc = 0x0001)

/-- `load` puts byte `i` of the image at `0x8000 + i` and then 0x00 and 0x80 in the reset vector, changes no other byte, no
register and not the run state (70_reset_and_hazards.md R236). That the vector wins over image bytes at 0xFFFC and 0xFFFD
is the order of decision D9 (R237, log entry 7). -/
def Obligations.LoadPlacesTheImageAndTheVector : Prop :=
  ∀ (image : List Byte) (s t : State), hostLoad image s = .next t →
    (∀ b : Word, t.read b =
      if b = 0xFFFC then 0x00 else if b = 0xFFFD then 0x80
      else if 0x8000 ≤ b.toNat ∧ b.toNat < 0x8000 + image.length then image.getD (b.toNat - 0x8000) 0x00
      else s.read b) ∧
    t.a = s.a ∧ t.x = s.x ∧ t.y = s.y ∧ t.p = s.p ∧ t.pc = s.pc ∧ t.pcPre = s.pcPre ∧ t.runState = s.runState ∧
    t.faultRecord = s.faultRecord ∧ t.wasReset = s.wasReset

/-- Under any opcode table, `load_and_run` is `load`, then `reset`, then `run`; execution starts at 0x8000 with `A`, `X`, `Y` and
`P` zero (70_reset_and_hazards.md R238). For an image of 0x7FFD bytes or more the start at 0x8000 rests on the order and
the limit of decision D9 (log entry 7); the entry of `run` after a reset on decision D8 (log entry 6). -/
def Obligations.LoadAndRunStartsAtTheLoadAddress : Prop :=
  ∀ (image : List Byte) (s : State), s.runState = .idle ∨ s.runState = .halted ∨ s.runState = .faulted →
    image.length ≤ 0x8000 →
    ∃ l r u : State, hostLoad image s = .next l ∧ hostReset l = .next r ∧ hostRun r = .next u ∧
      u.runState = .fetching ∧ u.pc = 0x8000 ∧ u.a = 0x00 ∧ u.x = 0x00 ∧ u.y = 0x00 ∧ u.p = 0x00 ∧
      ∀ (tab : Optab) (fuel : Nat), loadAndRun tab fuel image s = runLoop tab fuel u ∧
        loadAndRun tab fuel image s = run tab fuel r

/-- R58: `mem_write` does exactly one byte write, on any address, and only while the core is not running. -/
def Obligations.HostWriteIsOneByteWrite : Prop :=
  ∀ (addr : Word) (b : Byte) (s : State),
    (s.runState = .idle ∨ s.runState = .halted ∨ s.runState = .faulted → hostMemWrite addr b s = .next (s.write addr b)) ∧
    (s.runState = .fetching ∨ s.runState = .dispatching → ∀ t, hostMemWrite addr b s ≠ .next t)

/-- What the host reads: everything when the core is not running and has been reset, memory and the run state alone before
the first reset, nothing during a run (10_state.md R36, R37; 70_reset_and_hazards.md R240; decisions D7, D16, log entries 5,
16). -/
def Obligations.ObservationByRunState : Prop :=
  ∀ s : State,
    (s.runState = .fetching ∨ s.runState = .dispatching → s.observe = none) ∧
    (s.runState = .idle ∨ s.runState = .halted ∨ s.runState = .faulted → s.wasReset = true →
      s.observe = some ⟨some ⟨s.a, s.x, s.y, s.p, s.pc, s.faultRecord⟩, s.runState, s.mem⟩) ∧
    (s.runState = .idle ∨ s.runState = .halted ∨ s.runState = .faulted → s.wasReset = false →
      s.observe = some ⟨none, s.runState, s.mem⟩)
end

