-- ==== Sys2Proof/Laws/PerInstr.lean ====
section
/-! SUPPORT. The family `Shape`, one lemma per constructor of Instr: the operand fits the mode, the encoding has the
instruction's length, and the first byte's row of the default table has its mode, length and handler (spec/30_encoding.md
R86, R87, R89). -/

namespace Sys2Proof.Laws.Shape

/-- The shape of an instruction agrees with the table. -/
def Statement (i : Instr) : Prop :=
  i.wf = true ∧ (encode i).length = i.len ∧
    ∃ b rest, encode i = b :: rest ∧ Optab.lookup defaultOptab b = some ⟨b, i.mode, i.len⟩ ∧
      handlerOf b = some i.handler

theorem brk : Statement .brk := ⟨rfl, rfl, _, _, rfl, rfl, rfl⟩
theorem ldaImmediate (d8 : Byte) : Statement (.ldaImmediate d8) := ⟨rfl, rfl, _, _, rfl, rfl, rfl⟩
theorem ldaZeroPage (d8 : Byte) : Statement (.ldaZeroPage d8) := ⟨rfl, rfl, _, _, rfl, rfl, rfl⟩
theorem ldaZeroPageX (d8 : Byte) : Statement (.ldaZeroPageX d8) := ⟨rfl, rfl, _, _, rfl, rfl, rfl⟩
theorem ldaAbsolute (a16 : Word) : Statement (.ldaAbsolute a16) := ⟨rfl, rfl, _, _, rfl, rfl, rfl⟩
theorem ldaAbsoluteX (a16 : Word) : Statement (.ldaAbsoluteX a16) := ⟨rfl, rfl, _, _, rfl, rfl, rfl⟩
theorem ldaAbsoluteY (a16 : Word) : Statement (.ldaAbsoluteY a16) := ⟨rfl, rfl, _, _, rfl, rfl, rfl⟩
theorem ldaIndirectX (d8 : Byte) : Statement (.ldaIndirectX d8) := ⟨rfl, rfl, _, _, rfl, rfl, rfl⟩
theorem ldaIndirectY (d8 : Byte) : Statement (.ldaIndirectY d8) := ⟨rfl, rfl, _, _, rfl, rfl, rfl⟩
theorem staZeroPage (d8 : Byte) : Statement (.staZeroPage d8) := ⟨rfl, rfl, _, _, rfl, rfl, rfl⟩
theorem staZeroPageX (d8 : Byte) : Statement (.staZeroPageX d8) := ⟨rfl, rfl, _, _, rfl, rfl, rfl⟩
theorem staAbsolute (a16 : Word) : Statement (.staAbsolute a16) := ⟨rfl, rfl, _, _, rfl, rfl, rfl⟩
theorem staAbsoluteX (a16 : Word) : Statement (.staAbsoluteX a16) := ⟨rfl, rfl, _, _, rfl, rfl, rfl⟩
theorem staAbsoluteY (a16 : Word) : Statement (.staAbsoluteY a16) := ⟨rfl, rfl, _, _, rfl, rfl, rfl⟩
theorem staIndirectX (d8 : Byte) : Statement (.staIndirectX d8) := ⟨rfl, rfl, _, _, rfl, rfl, rfl⟩
theorem staIndirectY (d8 : Byte) : Statement (.staIndirectY d8) := ⟨rfl, rfl, _, _, rfl, rfl, rfl⟩
theorem tax : Statement .tax := ⟨rfl, rfl, _, _, rfl, rfl, rfl⟩
theorem inx : Statement .inx := ⟨rfl, rfl, _, _, rfl, rfl, rfl⟩

end Sys2Proof.Laws.Shape
end

