-- ==== Sys2Proof/Laws/State.lean ====
section
/-! SUPPORT. One lemma per field per update of State, each true by rfl, so that no later proof unfolds a record update. -/

namespace Sys2Proof.Machine

@[simp] theorem State.write_a (s : State) (addr : Word) (b : Byte) : (s.write addr b).a = s.a := rfl
@[simp] theorem State.write_x (s : State) (addr : Word) (b : Byte) : (s.write addr b).x = s.x := rfl
@[simp] theorem State.write_y (s : State) (addr : Word) (b : Byte) : (s.write addr b).y = s.y := rfl
@[simp] theorem State.write_p (s : State) (addr : Word) (b : Byte) : (s.write addr b).p = s.p := rfl
@[simp] theorem State.write_pc (s : State) (addr : Word) (b : Byte) : (s.write addr b).pc = s.pc := rfl
@[simp] theorem State.write_pcPre (s : State) (addr : Word) (b : Byte) : (s.write addr b).pcPre = s.pcPre := rfl
@[simp] theorem State.write_mem (s : State) (addr : Word) (b : Byte) : (s.write addr b).mem = s.mem.write addr.toNat b := rfl
@[simp] theorem State.write_runState (s : State) (addr : Word) (b : Byte) : (s.write addr b).runState = s.runState := rfl
@[simp] theorem State.write_faultRecord (s : State) (addr : Word) (b : Byte) : (s.write addr b).faultRecord = s.faultRecord := rfl
@[simp] theorem State.write_wasReset (s : State) (addr : Word) (b : Byte) : (s.write addr b).wasReset = s.wasReset := rfl

@[simp] theorem State.setA_a (s : State) (b : Byte) : (s.setA b).a = b := rfl
@[simp] theorem State.setA_x (s : State) (b : Byte) : (s.setA b).x = s.x := rfl
@[simp] theorem State.setA_y (s : State) (b : Byte) : (s.setA b).y = s.y := rfl
@[simp] theorem State.setA_p (s : State) (b : Byte) : (s.setA b).p = s.p := rfl
@[simp] theorem State.setA_pc (s : State) (b : Byte) : (s.setA b).pc = s.pc := rfl
@[simp] theorem State.setA_pcPre (s : State) (b : Byte) : (s.setA b).pcPre = s.pcPre := rfl
@[simp] theorem State.setA_mem (s : State) (b : Byte) : (s.setA b).mem = s.mem := rfl
@[simp] theorem State.setA_runState (s : State) (b : Byte) : (s.setA b).runState = s.runState := rfl
@[simp] theorem State.setA_faultRecord (s : State) (b : Byte) : (s.setA b).faultRecord = s.faultRecord := rfl
@[simp] theorem State.setA_wasReset (s : State) (b : Byte) : (s.setA b).wasReset = s.wasReset := rfl

@[simp] theorem State.setX_a (s : State) (b : Byte) : (s.setX b).a = s.a := rfl
@[simp] theorem State.setX_x (s : State) (b : Byte) : (s.setX b).x = b := rfl
@[simp] theorem State.setX_y (s : State) (b : Byte) : (s.setX b).y = s.y := rfl
@[simp] theorem State.setX_p (s : State) (b : Byte) : (s.setX b).p = s.p := rfl
@[simp] theorem State.setX_pc (s : State) (b : Byte) : (s.setX b).pc = s.pc := rfl
@[simp] theorem State.setX_pcPre (s : State) (b : Byte) : (s.setX b).pcPre = s.pcPre := rfl
@[simp] theorem State.setX_mem (s : State) (b : Byte) : (s.setX b).mem = s.mem := rfl
@[simp] theorem State.setX_runState (s : State) (b : Byte) : (s.setX b).runState = s.runState := rfl
@[simp] theorem State.setX_faultRecord (s : State) (b : Byte) : (s.setX b).faultRecord = s.faultRecord := rfl
@[simp] theorem State.setX_wasReset (s : State) (b : Byte) : (s.setX b).wasReset = s.wasReset := rfl

@[simp] theorem State.setP_a (s : State) (b : Byte) : (s.setP b).a = s.a := rfl
@[simp] theorem State.setP_x (s : State) (b : Byte) : (s.setP b).x = s.x := rfl
@[simp] theorem State.setP_y (s : State) (b : Byte) : (s.setP b).y = s.y := rfl
@[simp] theorem State.setP_p (s : State) (b : Byte) : (s.setP b).p = b := rfl
@[simp] theorem State.setP_pc (s : State) (b : Byte) : (s.setP b).pc = s.pc := rfl
@[simp] theorem State.setP_pcPre (s : State) (b : Byte) : (s.setP b).pcPre = s.pcPre := rfl
@[simp] theorem State.setP_mem (s : State) (b : Byte) : (s.setP b).mem = s.mem := rfl
@[simp] theorem State.setP_runState (s : State) (b : Byte) : (s.setP b).runState = s.runState := rfl
@[simp] theorem State.setP_faultRecord (s : State) (b : Byte) : (s.setP b).faultRecord = s.faultRecord := rfl
@[simp] theorem State.setP_wasReset (s : State) (b : Byte) : (s.setP b).wasReset = s.wasReset := rfl

@[simp] theorem State.beginInstr_a (s : State) : s.beginInstr.a = s.a := rfl
@[simp] theorem State.beginInstr_x (s : State) : s.beginInstr.x = s.x := rfl
@[simp] theorem State.beginInstr_y (s : State) : s.beginInstr.y = s.y := rfl
@[simp] theorem State.beginInstr_p (s : State) : s.beginInstr.p = s.p := rfl
@[simp] theorem State.beginInstr_pc (s : State) : s.beginInstr.pc = s.pc + 1 := rfl
@[simp] theorem State.beginInstr_pcPre (s : State) : s.beginInstr.pcPre = s.pc + 1 := rfl
@[simp] theorem State.beginInstr_mem (s : State) : s.beginInstr.mem = s.mem := rfl
@[simp] theorem State.beginInstr_runState (s : State) : s.beginInstr.runState = .dispatching := rfl
@[simp] theorem State.beginInstr_faultRecord (s : State) : s.beginInstr.faultRecord = s.faultRecord := rfl
@[simp] theorem State.beginInstr_wasReset (s : State) : s.beginInstr.wasReset = s.wasReset := rfl

@[simp] theorem State.endInstr_a (s : State) (len : Nat) : (s.endInstr len).a = s.a := rfl
@[simp] theorem State.endInstr_x (s : State) (len : Nat) : (s.endInstr len).x = s.x := rfl
@[simp] theorem State.endInstr_y (s : State) (len : Nat) : (s.endInstr len).y = s.y := rfl
@[simp] theorem State.endInstr_p (s : State) (len : Nat) : (s.endInstr len).p = s.p := rfl
@[simp] theorem State.endInstr_pc (s : State) (len : Nat) : (s.endInstr len).pc = if s.pc = s.pcPre then s.pc + (BitVec.ofNat 16 len - 1) else s.pc := rfl
@[simp] theorem State.endInstr_pcPre (s : State) (len : Nat) : (s.endInstr len).pcPre = s.pcPre := rfl
@[simp] theorem State.endInstr_mem (s : State) (len : Nat) : (s.endInstr len).mem = s.mem := rfl
@[simp] theorem State.endInstr_runState (s : State) (len : Nat) : (s.endInstr len).runState = .fetching := rfl
@[simp] theorem State.endInstr_faultRecord (s : State) (len : Nat) : (s.endInstr len).faultRecord = s.faultRecord := rfl
@[simp] theorem State.endInstr_wasReset (s : State) (len : Nat) : (s.endInstr len).wasReset = s.wasReset := rfl

@[simp] theorem State.halt_a (s : State) : s.halt.a = s.a := rfl
@[simp] theorem State.halt_x (s : State) : s.halt.x = s.x := rfl
@[simp] theorem State.halt_y (s : State) : s.halt.y = s.y := rfl
@[simp] theorem State.halt_p (s : State) : s.halt.p = s.p := rfl
@[simp] theorem State.halt_pc (s : State) : s.halt.pc = s.pc := rfl
@[simp] theorem State.halt_pcPre (s : State) : s.halt.pcPre = s.pcPre := rfl
@[simp] theorem State.halt_mem (s : State) : s.halt.mem = s.mem := rfl
@[simp] theorem State.halt_runState (s : State) : s.halt.runState = .halted := rfl
@[simp] theorem State.halt_faultRecord (s : State) : s.halt.faultRecord = s.faultRecord := rfl
@[simp] theorem State.halt_wasReset (s : State) : s.halt.wasReset = s.wasReset := rfl

@[simp] theorem State.raiseFault_a (s : State) (f : CoreFault) : (s.raiseFault f).a = s.a := rfl
@[simp] theorem State.raiseFault_x (s : State) (f : CoreFault) : (s.raiseFault f).x = s.x := rfl
@[simp] theorem State.raiseFault_y (s : State) (f : CoreFault) : (s.raiseFault f).y = s.y := rfl
@[simp] theorem State.raiseFault_p (s : State) (f : CoreFault) : (s.raiseFault f).p = s.p := rfl
@[simp] theorem State.raiseFault_pc (s : State) (f : CoreFault) : (s.raiseFault f).pc = s.pc := rfl
@[simp] theorem State.raiseFault_pcPre (s : State) (f : CoreFault) : (s.raiseFault f).pcPre = s.pcPre := rfl
@[simp] theorem State.raiseFault_mem (s : State) (f : CoreFault) : (s.raiseFault f).mem = s.mem := rfl
@[simp] theorem State.raiseFault_runState (s : State) (f : CoreFault) : (s.raiseFault f).runState = .faulted := rfl
@[simp] theorem State.raiseFault_faultRecord (s : State) (f : CoreFault) : (s.raiseFault f).faultRecord = some f := rfl
@[simp] theorem State.raiseFault_wasReset (s : State) (f : CoreFault) : (s.raiseFault f).wasReset = s.wasReset := rfl

@[simp] theorem State.updateZN_a (s : State) (r : Byte) : (s.updateZN r).a = s.a := rfl
@[simp] theorem State.updateZN_x (s : State) (r : Byte) : (s.updateZN r).x = s.x := rfl
@[simp] theorem State.updateZN_y (s : State) (r : Byte) : (s.updateZN r).y = s.y := rfl
@[simp] theorem State.updateZN_p (s : State) (r : Byte) : (s.updateZN r).p = Machine.updateZN r s.p := rfl
@[simp] theorem State.updateZN_pc (s : State) (r : Byte) : (s.updateZN r).pc = s.pc := rfl
@[simp] theorem State.updateZN_pcPre (s : State) (r : Byte) : (s.updateZN r).pcPre = s.pcPre := rfl
@[simp] theorem State.updateZN_mem (s : State) (r : Byte) : (s.updateZN r).mem = s.mem := rfl
@[simp] theorem State.updateZN_runState (s : State) (r : Byte) : (s.updateZN r).runState = s.runState := rfl
@[simp] theorem State.updateZN_faultRecord (s : State) (r : Byte) : (s.updateZN r).faultRecord = s.faultRecord := rfl
@[simp] theorem State.updateZN_wasReset (s : State) (r : Byte) : (s.updateZN r).wasReset = s.wasReset := rfl

@[simp] theorem State.loadA_a (s : State) (v : Byte) : (s.loadA v).a = v := rfl
@[simp] theorem State.loadA_x (s : State) (v : Byte) : (s.loadA v).x = s.x := rfl
@[simp] theorem State.loadA_y (s : State) (v : Byte) : (s.loadA v).y = s.y := rfl
@[simp] theorem State.loadA_p (s : State) (v : Byte) : (s.loadA v).p = Machine.updateZN v s.p := rfl
@[simp] theorem State.loadA_pc (s : State) (v : Byte) : (s.loadA v).pc = s.pc := rfl
@[simp] theorem State.loadA_pcPre (s : State) (v : Byte) : (s.loadA v).pcPre = s.pcPre := rfl
@[simp] theorem State.loadA_mem (s : State) (v : Byte) : (s.loadA v).mem = s.mem := rfl
@[simp] theorem State.loadA_runState (s : State) (v : Byte) : (s.loadA v).runState = s.runState := rfl
@[simp] theorem State.loadA_faultRecord (s : State) (v : Byte) : (s.loadA v).faultRecord = s.faultRecord := rfl
@[simp] theorem State.loadA_wasReset (s : State) (v : Byte) : (s.loadA v).wasReset = s.wasReset := rfl

@[simp] theorem State.storeA_a (s : State) (ea : Word) : (s.storeA ea).a = s.a := rfl
@[simp] theorem State.storeA_x (s : State) (ea : Word) : (s.storeA ea).x = s.x := rfl
@[simp] theorem State.storeA_y (s : State) (ea : Word) : (s.storeA ea).y = s.y := rfl
@[simp] theorem State.storeA_p (s : State) (ea : Word) : (s.storeA ea).p = s.p := rfl
@[simp] theorem State.storeA_pc (s : State) (ea : Word) : (s.storeA ea).pc = s.pc := rfl
@[simp] theorem State.storeA_pcPre (s : State) (ea : Word) : (s.storeA ea).pcPre = s.pcPre := rfl
@[simp] theorem State.storeA_mem (s : State) (ea : Word) : (s.storeA ea).mem = s.mem.write ea.toNat s.a := rfl
@[simp] theorem State.storeA_runState (s : State) (ea : Word) : (s.storeA ea).runState = s.runState := rfl
@[simp] theorem State.storeA_faultRecord (s : State) (ea : Word) : (s.storeA ea).faultRecord = s.faultRecord := rfl
@[simp] theorem State.storeA_wasReset (s : State) (ea : Word) : (s.storeA ea).wasReset = s.wasReset := rfl

@[simp] theorem State.loadX_a (s : State) (v : Byte) : (s.loadX v).a = s.a := rfl
@[simp] theorem State.loadX_x (s : State) (v : Byte) : (s.loadX v).x = v := rfl
@[simp] theorem State.loadX_y (s : State) (v : Byte) : (s.loadX v).y = s.y := rfl
@[simp] theorem State.loadX_p (s : State) (v : Byte) : (s.loadX v).p = Machine.updateZN v s.p := rfl
@[simp] theorem State.loadX_pc (s : State) (v : Byte) : (s.loadX v).pc = s.pc := rfl
@[simp] theorem State.loadX_pcPre (s : State) (v : Byte) : (s.loadX v).pcPre = s.pcPre := rfl
@[simp] theorem State.loadX_mem (s : State) (v : Byte) : (s.loadX v).mem = s.mem := rfl
@[simp] theorem State.loadX_runState (s : State) (v : Byte) : (s.loadX v).runState = s.runState := rfl
@[simp] theorem State.loadX_faultRecord (s : State) (v : Byte) : (s.loadX v).faultRecord = s.faultRecord := rfl
@[simp] theorem State.loadX_wasReset (s : State) (v : Byte) : (s.loadX v).wasReset = s.wasReset := rfl

@[simp] theorem State.doReset_a (s : State) : s.doReset.a = 0x00 := rfl
@[simp] theorem State.doReset_x (s : State) : s.doReset.x = 0x00 := rfl
@[simp] theorem State.doReset_y (s : State) : s.doReset.y = 0x00 := rfl
@[simp] theorem State.doReset_p (s : State) : s.doReset.p = 0x00 := rfl
@[simp] theorem State.doReset_pc (s : State) : s.doReset.pc = s.readWord Config.resetVec := rfl
@[simp] theorem State.doReset_pcPre (s : State) : s.doReset.pcPre = s.pcPre := rfl
@[simp] theorem State.doReset_mem (s : State) : s.doReset.mem = s.mem := rfl
@[simp] theorem State.doReset_runState (s : State) : s.doReset.runState = .idle := rfl
@[simp] theorem State.doReset_faultRecord (s : State) : s.doReset.faultRecord = none := rfl
@[simp] theorem State.doReset_wasReset (s : State) : s.doReset.wasReset = true := rfl

end Sys2Proof.Machine
end

