-- ==== Sys2Proof/Laws/Memory.lean ====
section
/-! SUPPORT. The laws of memory: a write is read back and leaves every other address alone, and it keeps the canonical
form; the same at the level of the state, for a byte, a word and an image. None of the read laws needs the canonical
form, so they hold in states no run reaches too. -/

namespace Sys2Proof.Machine

theorem Memory.read_erase_same (m : Memory) (n : Nat) : (Memory.erase m n).read n = blankByte := by
  unfold Memory.erase
  induction m with
  | nil => rfl
  | cons c m ih =>
    by_cases h : c.1 = n
    · rw [List.filter_cons_of_neg (by simp [h])]; exact ih
    · rw [List.filter_cons_of_pos (by simp [h]), Memory.read, if_neg (Ne.symm h)]; exact ih

theorem Memory.read_erase_other (m : Memory) {n k : Nat} (h : k ≠ n) : (Memory.erase m n).read k = m.read k := by
  unfold Memory.erase
  induction m with
  | nil => rfl
  | cons c m ih =>
    by_cases hc : c.1 = n
    · rw [List.filter_cons_of_neg (by simp [hc]), ih, Memory.read, if_neg (hc ▸ h)]
    · rw [List.filter_cons_of_pos (by simp [hc])]
      simp only [Memory.read, ih]

theorem Memory.read_insert (m : Memory) (n k : Nat) (b : Byte) (hm : ∀ c ∈ m, c.1 ≠ n) :
    (Memory.insert m n b).read k = if k = n then b else m.read k := by
  induction m with
  | nil => simp [Memory.insert, Memory.read]
  | cons c m ih =>
    have hc : c.1 ≠ n := hm c (by simp)
    have ih := ih fun d hd => hm d (by simp [hd])
    unfold Memory.insert
    split
    · simp only [Memory.read]
    · simp only [Memory.read, ih]
      split
      · rename_i hk; rw [if_neg (hk ▸ hc)]
      · rfl

theorem Memory.erase_ne (m : Memory) (n : Nat) : ∀ c ∈ Memory.erase m n, c.1 ≠ n := by
  intro c hc
  simpa using (List.mem_filter.1 hc).2

/-- What a memory reads as after a write: the byte where it was written, as before everywhere else (R53). -/
theorem Memory.read_write (m : Memory) (n k : Nat) (b : Byte) :
    (m.write n b).read k = if k = n then b else m.read k := by
  unfold Memory.write
  split
  · rename_i hb
    split
    · rename_i hk; rw [hk, hb]; exact Memory.read_erase_same m n
    · rename_i hk; exact Memory.read_erase_other m hk
  · rw [Memory.read_insert _ n k b (Memory.erase_ne m n)]
    split
    · rfl
    · rename_i hk; exact Memory.read_erase_other m hk

theorem Memory.mem_insert (m : Memory) (n : Nat) (b : Byte) : ∀ c ∈ Memory.insert m n b, c ∈ m ∨ c = (n, b) := by
  induction m with
  | nil => simp [Memory.insert]
  | cons d m ih =>
    intro c hc
    unfold Memory.insert at hc
    split at hc
    · rcases List.mem_cons.1 hc with h | h
      · exact .inr h
      · exact .inl h
    · rcases List.mem_cons.1 hc with rfl | hc
      · exact .inl (by simp)
      · exact (ih c hc).imp (fun h => by simp [h]) id

theorem Memory.insert_rising (m : Memory) (n : Nat) (b : Byte) (hm : ∀ c ∈ m, c.1 ≠ n)
    (h : m.Pairwise fun c d => c.1 < d.1) : (Memory.insert m n b).Pairwise fun c d => c.1 < d.1 := by
  induction m with
  | nil => simp [Memory.insert]
  | cons d m ih =>
    obtain ⟨habove, hrest⟩ := List.pairwise_cons.1 h
    have hd : d.1 ≠ n := hm d (by simp)
    unfold Memory.insert
    split
    · rename_i hlt
      refine List.pairwise_cons.2 ⟨fun c hc => ?_, h⟩
      rcases List.mem_cons.1 hc with rfl | hc
      · exact hlt
      · exact Nat.lt_trans hlt (habove c hc)
    · refine List.pairwise_cons.2 ⟨fun c hc => ?_, ih (fun c hc => hm c (by simp [hc])) hrest⟩
      rcases Memory.mem_insert m n b c hc with hc | rfl
      · exact habove c hc
      · show d.1 < n
        omega

/-- A write to an address of the address space keeps the canonical form. -/
theorem Memory.write_wf (m : Memory) (n : Nat) (b : Byte) (hn : n < 65536) (h : Memory.wf m) :
    Memory.wf (m.write n b) := by
  have he : Memory.wf (Memory.erase m n) :=
    ⟨h.1.filter _, fun c hc => h.2 c (List.mem_of_mem_filter hc)⟩
  unfold Memory.write
  split
  · exact he
  · rename_i hb
    refine ⟨Memory.insert_rising _ n b (Memory.erase_ne m n) he.1, fun c hc => ?_⟩
    rcases Memory.mem_insert _ n b c hc with hc | rfl
    · exact he.2 c hc
    · exact ⟨hn, hb⟩

theorem State.write_wf (s : State) (addr : Word) (b : Byte) (h : s.mem.wf) : (s.write addr b).mem.wf :=
  Memory.write_wf s.mem addr.toNat b addr.isLt h

theorem State.writeWord_wf (s : State) (addr w : Word) (h : s.mem.wf) : (s.writeWord addr w).mem.wf :=
  State.write_wf _ _ _ (State.write_wf _ _ _ h)

theorem State.copyIn_wf (s : State) (addr : Word) (image : List Byte) (h : s.mem.wf) :
    (s.copyIn addr image).mem.wf := by
  induction image generalizing s addr with
  | nil => exact h
  | cons b bs ih => exact ih _ _ (State.write_wf s addr b h)

theorem State.doLoad_wf (s : State) (image : List Byte) (h : s.mem.wf) : (s.doLoad image).mem.wf :=
  State.writeWord_wf _ _ _ (State.copyIn_wf s _ image h)

theorem State.placeInstr_wf (s : State) (nbits w : Nat) (h : s.mem.wf) : (s.placeInstr nbits w).mem.wf :=
  State.write_wf _ _ _ (State.write_wf _ _ _ (State.write_wf _ _ _ h))

/-- Right after reset memory lists nothing, and that is its canonical form. -/
theorem reset_mem_wf : State.reset.mem.wf := ⟨.nil, by simp [State.reset]⟩

/-- What a state reads after one byte is written (R53). -/
theorem State.read_write (s : State) (addr k : Word) (b : Byte) :
    (s.write addr b).read k = if k = addr then b else s.read k := by
  simp only [State.read, State.write_mem, Memory.read_write, ← BitVec.toNat_inj]

/-- Two states with the same memory read the same byte everywhere. -/
theorem State.read_of_mem_eq {s t : State} (h : t.mem = s.mem) (addr : Word) : t.read addr = s.read addr := by
  unfold State.read; rw [h]

/-- Two states with the same memory read the same word everywhere. -/
theorem State.readWord_of_mem_eq {s t : State} (h : t.mem = s.mem) (addr : Word) :
    t.readWord addr = s.readWord addr := by
  unfold State.readWord; rw [State.read_of_mem_eq h, State.read_of_mem_eq h]

/-- What a state reads whose memory is another's with one byte written. -/
theorem State.read_of_mem_write {s t : State} {addr : Word} {b : Byte} (h : t.mem = s.mem.write addr.toNat b)
    (k : Word) : t.read k = if k = addr then b else s.read k :=
  (State.read_of_mem_eq (s := s.write addr b) h k).trans (State.read_write s addr k b)

/-- The first advance leaves memory alone. -/
@[simp] theorem State.beginInstr_read (s : State) (addr : Word) : s.beginInstr.read addr = s.read addr := rfl

/-- The second advance leaves memory alone. -/
@[simp] theorem State.endInstr_read (s : State) (len : Nat) (addr : Word) :
    (s.endInstr len).read addr = s.read addr := rfl

/-- What a store leaves in memory (R170). -/
theorem State.read_storeA (s : State) (ea k : Word) : (s.storeA ea).read k = if k = ea then s.a else s.read k :=
  State.read_write s ea k s.a

end Sys2Proof.Machine
end

