-- ==== Sys2Proof/Laws/Words.lean ====
section
/-! SUPPORT. The laws of bytes, words and status bits: a word is its two bytes, a zero-extended byte lies in page 0, a
status byte's bit written is read back and the others are kept. -/

namespace Sys2Proof

@[simp] theorem loByte_word (hi lo : Byte) : loByte (word hi lo) = lo := by
  unfold loByte word
  ext k hk
  rw [BitVec.getElem_extractLsb', BitVec.getLsbD_append]
  simp [hk]

@[simp] theorem hiByte_word (hi lo : Byte) : hiByte (word hi lo) = hi := by
  unfold hiByte word
  ext k hk
  rw [BitVec.getElem_extractLsb', BitVec.getLsbD_append]
  simp [BitVec.getLsbD_eq_getElem hk]

@[simp] theorem word_hiByte_loByte (w : Word) : word (hiByte w) (loByte w) = w := by
  unfold word hiByte loByte
  ext k hk
  rw [BitVec.getElem_append]
  split
  · simp [BitVec.getLsbD_eq_getElem hk]
  · have : 8 + (k - 8) = k := by omega
    simp [this, BitVec.getLsbD_eq_getElem hk]

/-- A zero-extended byte is an address of page 0 (spec/00_scope.md R9). -/
@[simp] theorem zext16_toNat (b : Byte) : (zext16 b).toNat = b.toNat := by
  unfold zext16
  rw [BitVec.toNat_setWidth]
  exact Nat.mod_eq_of_lt (by omega)

end Sys2Proof

namespace Sys2Proof.Machine

/-- The bits of a status byte after one of them is written. -/
theorem getLsbD_withBit (p : Byte) (k j : Nat) (v : Bool) (hk : k < 8) :
    (withBit p k v).getLsbD j = if j = k then v else p.getLsbD j := by
  unfold withBit
  have hlow : j < 8 ∨ p.getLsbD j = false := by
    by_cases h8 : j < 8
    · exact .inl h8
    · exact .inr (BitVec.getLsbD_of_ge p j (by omega))
  by_cases hj : j = k
  · cases v <;> simp [hj, hk]
  · cases v <;> rcases hlow with h8 | h8 <;> simp [h8, hj, Ne.symm hj, BitVec.getLsbD_twoPow]

/-- Every bit of the status byte after the flag updater (spec/41_flag_update.md R120). -/
theorem getLsbD_updateZN (r p : Byte) (j : Nat) :
    (updateZN r p).getLsbD j =
      if j = nBit then r.getLsbD 7 else if j = zBit then (r == 0x00) else p.getLsbD j := by
  unfold updateZN
  rw [getLsbD_withBit _ _ _ _ (by decide), getLsbD_withBit _ _ _ _ (by decide)]

end Sys2Proof.Machine
end

