-- ==== Sys2Proof/Laws/Decoding.lean ====
section
/-! SUPPORT. The laws of the opcode table: a lookup finds a row of the byte looked up, the default `OPTAB` and the handler
wiring are both read off the one table, and a fetch is a decoding of the bytes at `PC`. -/

namespace Sys2Proof

/-- A row found is a row of the table with the byte looked for. -/
theorem findRow_some {b : Byte} {r : OpcodeRow} (h : findRow b = some r) : r ∈ opcodeTable ∧ r.opcode = b :=
  ⟨List.mem_of_find?_eq_some h, by simpa using List.find?_some h⟩

/-- The default `OPTAB` holds the mode and length of the table's row (spec/30_encoding.md R85, R86). -/
theorem lookup_default (b : Byte) : Optab.lookup defaultOptab b = (findRow b).map OpcodeRow.toOptabRow := by
  unfold Optab.lookup defaultOptab findRow
  rw [List.find?_map]
  rfl

/-- The bytes of an opcode with an entry decode, whatever follows. -/
theorem decodeBytes_eq_none {b0 : Byte} (b1 b2 : Byte) : decodeBytes b0 b1 b2 = none ↔ findRow b0 = none := by
  unfold decodeBytes
  simp

end Sys2Proof

namespace Sys2Proof.Machine

/-- A step's fetch answers none exactly where the default table has no entry (spec/60_exceptions.md R201). -/
theorem fetchInstr_eq_none (s : State) : s.fetchInstr = none ↔ findRow (s.read s.pc) = none :=
  decodeBytes_eq_none _ _

end Sys2Proof.Machine
end

