-- ==== Sys2Proof/Laws/Exec.lean ====
section
/-! SUPPORT. One lemma per shared operation that says what it answers: the advances of the program counter, the load and
store cycles, and of `exec` that every instruction answers a next state. -/

namespace Sys2Proof.Machine

/-- The two advances of an instruction together move `PC` by its length (spec/42_execute_cycle.md R140). -/
theorem pc_after_advances (s t : State) (len : Nat) (hpc : t.pc = s.pc + 1) (hpre : t.pcPre = s.pc + 1) :
    (t.endInstr len).pc = s.pc + BitVec.ofNat 16 len := by
  rw [State.endInstr_pc, if_pos (by rw [hpc, hpre]), hpc, BitVec.add_assoc]
  congr 1
  rw [BitVec.add_comm, BitVec.sub_add_cancel]

/-- What a load's cycle answers: the loaded byte, its flags, `PC` past the instruction, and nothing else changed but the
latch (R160). -/
theorem loadCycle_eq (len : Nat) (ea : State → Word) (s : State) :
    loadCycle len ea s = .next
      { s with a := s.read (ea s.beginInstr), p := updateZN (s.read (ea s.beginInstr)) s.p
               pc := s.pc + BitVec.ofNat 16 len, pcPre := s.pc + 1, runState := .fetching } := by
  unfold loadCycle
  congr 1
  have hpc := pc_after_advances s (s.beginInstr.loadA (s.beginInstr.read (ea s.beginInstr))) len rfl rfl
  simp only [State.ext_iff]
  exact ⟨rfl, rfl, rfl, rfl, hpc, rfl, rfl, rfl, rfl, rfl⟩

/-- What a store's cycle answers: the byte stored, `PC` past the instruction, and nothing else changed but the latch
(R170). -/
theorem storeCycle_eq (len : Nat) (ea : State → Word) (s : State) :
    storeCycle len ea s = .next
      { s with mem := s.mem.write (ea s.beginInstr).toNat s.a
               pc := s.pc + BitVec.ofNat 16 len, pcPre := s.pc + 1, runState := .fetching } := by
  unfold storeCycle
  congr 1
  have hpc := pc_after_advances s (s.beginInstr.storeA (ea s.beginInstr)) len rfl rfl
  simp only [State.ext_iff]
  exact ⟨rfl, rfl, rfl, rfl, hpc, rfl, rfl, rfl, rfl, rfl⟩

/-- What `LDA #$nn` answers (R161). -/
theorem execLdaImmediate_eq (d8 : Byte) (s : State) :
    execLdaImmediate d8 s = .next
      { s with a := d8, p := updateZN d8 s.p, pc := s.pc + 2, pcPre := s.pc + 1, runState := .fetching } := by
  unfold execLdaImmediate
  congr 1
  have hpc := pc_after_advances s (s.beginInstr.loadA d8) 2 rfl rfl
  simp only [State.ext_iff]
  exact ⟨rfl, rfl, rfl, rfl, hpc, rfl, rfl, rfl, rfl, rfl⟩

/-- What writing `X` in a one-byte instruction answers (R185, R186). -/
theorem loadX_cycle_eq (v : Byte) (s : State) :
    (s.beginInstr.loadX v).endInstr 1 =
      { s with x := v, p := updateZN v s.p, pc := s.pc + 1, pcPre := s.pc + 1, runState := .fetching } := by
  have hpc := pc_after_advances s (s.beginInstr.loadX v) 1 rfl rfl
  simp only [State.ext_iff]
  exact ⟨rfl, rfl, rfl, rfl, hpc, rfl, rfl, rfl, rfl, rfl⟩

/-- What `TAX` answers (R185). -/
theorem execTax_eq (s : State) :
    execTax s = .next
      { s with x := s.a, p := updateZN s.a s.p, pc := s.pc + 1, pcPre := s.pc + 1, runState := .fetching } :=
  congrArg Host.Outcome.next (loadX_cycle_eq s.a s)

/-- What `INX` answers (R186). -/
theorem execInx_eq (s : State) :
    execInx s = .next
      { s with x := s.x + 1, p := updateZN (s.x + 1) s.p, pc := s.pc + 1, pcPre := s.pc + 1, runState := .fetching } :=
  congrArg Host.Outcome.next (loadX_cycle_eq (s.x + 1) s)

/-- What `BRK` answers (R195). -/
theorem execBrk_eq (s : State) :
    execBrk s = .next { s with pc := s.pc + 1, pcPre := s.pc + 1, runState := .halted } := rfl

end Sys2Proof.Machine
end

