-- ==== Sys2Proof/Laws/Step.lean ====
section
/-! SUPPORT. What an instruction of each handler answers, what a step can do, and what each host move can do: one
inversion lemma each, to be cited instead of unfolding. -/

namespace Sys2Proof.Machine

/-- What any `LDA` answers: a byte, its flags, `PC` past the instruction (spec/43_load_store.md R160). -/
theorem exec_lda (i : Instr) (s : State) (h : i.handler = .lda) :
    ∃ v : Byte, exec i s = .next
      { s with a := v, p := updateZN v s.p, pc := s.pc + BitVec.ofNat 16 i.len
               pcPre := s.pc + 1, runState := .fetching } := by
  cases i <;> first | exact ⟨_, loadCycle_eq _ _ s⟩ | exact ⟨_, execLdaImmediate_eq _ s⟩ | cases h

/-- What any `STA` answers: one byte stored at its address, `PC` past the instruction (R170). -/
theorem exec_sta (i : Instr) (s : State) (h : i.handler = .sta) :
    ∃ ea : Word, storeAddress i s.beginInstr = some ea ∧ exec i s = .next
      { s with mem := s.mem.write ea.toNat s.a, pc := s.pc + BitVec.ofNat 16 i.len
               pcPre := s.pc + 1, runState := .fetching } := by
  cases i <;> first | exact ⟨_, rfl, storeCycle_eq _ _ s⟩ | cases h

/-- What any register instruction answers: a new `X`, its flags, `PC` past the instruction (spec/44_register_ops.md). -/
theorem exec_toX (i : Instr) (s : State) (h : i.handler = .tax ∨ i.handler = .inx) :
    ∃ v : Byte, exec i s = .next
      { s with x := v, p := updateZN v s.p, pc := s.pc + BitVec.ofNat 16 i.len
               pcPre := s.pc + 1, runState := .fetching } := by
  cases i <;> first | exact ⟨_, execTax_eq s⟩ | exact ⟨_, execInx_eq s⟩ | (rcases h with h | h <;> cases h)

/-- Everything an instruction can do: what it answers, by its handler. -/
theorem exec_cases (i : Instr) (s : State) :
    (∃ v : Byte, i.handler = .lda ∧ exec i s = .next
      { s with a := v, p := updateZN v s.p, pc := s.pc + BitVec.ofNat 16 i.len
               pcPre := s.pc + 1, runState := .fetching }) ∨
    (∃ ea : Word, i.handler = .sta ∧ storeAddress i s.beginInstr = some ea ∧ exec i s = .next
      { s with mem := s.mem.write ea.toNat s.a, pc := s.pc + BitVec.ofNat 16 i.len
               pcPre := s.pc + 1, runState := .fetching }) ∨
    (∃ v : Byte, (i.handler = .tax ∨ i.handler = .inx) ∧ exec i s = .next
      { s with x := v, p := updateZN v s.p, pc := s.pc + BitVec.ofNat 16 i.len
               pcPre := s.pc + 1, runState := .fetching }) ∨
    (i.handler = .brk ∧ exec i s = .next
      { s with pc := s.pc + BitVec.ofNat 16 i.len, pcPre := s.pc + 1, runState := .halted }) := by
  cases h : i.handler with
  | lda => obtain ⟨v, hv⟩ := exec_lda i s h; exact .inl ⟨v, rfl, hv⟩
  | sta => obtain ⟨ea, he, hv⟩ := exec_sta i s h; exact .inr (.inl ⟨ea, rfl, he, hv⟩)
  | tax => obtain ⟨v, hv⟩ := exec_toX i s (.inl h); exact .inr (.inr (.inl ⟨v, .inl rfl, hv⟩))
  | inx => obtain ⟨v, hv⟩ := exec_toX i s (.inr h); exact .inr (.inr (.inl ⟨v, .inr rfl, hv⟩))
  | brk =>
    refine .inr (.inr (.inr ⟨rfl, ?_⟩))
    cases i <;> first | exact execBrk_eq s | cases h

/-- Everything a step can do: an instruction, the fault of an opcode byte without an entry, or the entry of `run()`. -/
theorem step_cases {s t : State} (h : step s = .next t) :
    (∃ i, s.runState = .fetching ∧ s.fetchInstr = some i ∧ exec i s = .next t) ∨
    (s.runState = .fetching ∧ s.fetchInstr = none ∧ t = s.takeUnrecognized) ∨
    (s.runState = .idle ∧ s.wasReset = true ∧ t = { s with runState := .fetching }) := by
  unfold step at h
  split at h
  · rename_i hr
    split at h
    · rename_i i hi; exact .inl ⟨i, hr, hi, h⟩
    · rename_i hi; exact .inr (.inl ⟨hr, hi, (Host.Outcome.next.inj h).symm⟩)
  · nomatch h
  · rename_i hr
    simp only [hostRun, hr] at h
    split at h
    · rename_i hw; exact .inr (.inr ⟨hr, hw, (Host.Outcome.next.inj h).symm⟩)
    · nomatch h
  · rename_i hr; simp [hostRun, hr] at h
  · rename_i hr; simp [hostRun, hr] at h

/-- Everything a host move can do, and that it is made only while the core is not running. -/
theorem hostMove_cases {m : HostMove} {s t : State} (h : hostMove m s = .next t) :
    s.running = false ∧
    ((∃ addr b, m = .memWrite addr b ∧ t = s.write addr b) ∨
      (∃ image, m = .load image ∧ image.length ≤ Config.maxImage ∧ t = s.doLoad image) ∨
      (m = .reset ∧ t = s.doReset) ∨
      (m = .run ∧ s.runState = .idle ∧ s.wasReset = true ∧ t = { s with runState := .fetching })) := by
  cases m with
  | memWrite addr b =>
    simp only [hostMove, hostMemWrite] at h
    split at h
    · nomatch h
    · rename_i hr
      exact ⟨by simpa using hr, .inl ⟨addr, b, rfl, (Host.Outcome.next.inj h).symm⟩⟩
  | load image =>
    simp only [hostMove, hostLoad] at h
    split at h
    · nomatch h
    · rename_i hr
      split at h
      · nomatch h
      · rename_i hl
        exact ⟨by simpa using hr, .inr (.inl ⟨image, rfl, by omega, (Host.Outcome.next.inj h).symm⟩)⟩
  | reset =>
    simp only [hostMove, hostReset] at h
    split at h
    · nomatch h
    · rename_i hr
      exact ⟨by simpa using hr, .inr (.inr (.inl ⟨rfl, (Host.Outcome.next.inj h).symm⟩))⟩
  | run =>
    simp only [hostMove, hostRun] at h
    split at h
    · rename_i hr
      split at h
      · rename_i hw
        exact ⟨by simp [State.running, hr], .inr (.inr (.inr ⟨rfl, hr, hw, (Host.Outcome.next.inj h).symm⟩))⟩
      · nomatch h
    · nomatch h
    · nomatch h
    · nomatch h
    · nomatch h

/-- Everything a handler can do where it raises no fault (spec/42_execute_cycle.md R136). -/
theorem handle_cases {h : Handler} {m : Mode} {s t : State} (e : handle h m s = .ok t) :
    (∃ ea, h = .lda ∧ t = s.loadA (s.read ea)) ∨ (∃ ea, h = .sta ∧ t = s.storeA ea) ∨
    (∃ v, (h = .tax ∨ h = .inx) ∧ t = s.loadX v) ∨ (h = .brk ∧ t = s.halt) := by
  cases h with
  | lda =>
    simp only [handle] at e
    split at e
    · rename_i ea _; cases e; exact .inl ⟨ea, rfl, rfl⟩
    · nomatch e
  | sta =>
    simp only [handle] at e
    split at e
    · rename_i ea _; cases e; exact .inr (.inl ⟨ea, rfl, rfl⟩)
    · nomatch e
  | tax => cases e; exact .inr (.inr (.inl ⟨s.a, .inl rfl, rfl⟩))
  | inx => cases e; exact .inr (.inr (.inl ⟨s.x + 1, .inr rfl, rfl⟩))
  | brk => cases e; exact .inr (.inr (.inr ⟨rfl, rfl⟩))

/-- Everything a cycle can do, under any opcode table: a fault, a load, a store, a write of `X`, or the halt (R131). -/
theorem cycle_cases (tab : Optab) (s : State) :
    (∃ f, cycle tab s = s.beginInstr.raiseFault f) ∨
    (∃ v len, cycle tab s = (s.beginInstr.loadA v).endInstr len) ∨
    (∃ ea len, cycle tab s = (s.beginInstr.storeA ea).endInstr len) ∨
    (∃ v len, cycle tab s = (s.beginInstr.loadX v).endInstr len) ∨
    cycle tab s = s.beginInstr.halt := by
  unfold cycle
  split
  · exact .inl ⟨_, rfl⟩
  · rename_i row _
    split
    · exact .inl ⟨_, rfl⟩
    · split
      · exact .inl ⟨_, rfl⟩
      · rename_i ht
        rcases handle_cases ht with ⟨ea, rfl, rfl⟩ | ⟨ea, rfl, rfl⟩ | ⟨v, rfl | rfl, rfl⟩ | ⟨rfl, rfl⟩
        · exact .inr (.inl ⟨_, row.len, rfl⟩)
        · exact .inr (.inr (.inl ⟨ea, row.len, rfl⟩))
        · exact .inr (.inr (.inr (.inl ⟨v, row.len, rfl⟩)))
        · exact .inr (.inr (.inr (.inl ⟨v, row.len, rfl⟩)))
        · exact .inr (.inr (.inr (.inr rfl)))

/-- Everything a step can do under any opcode table: a cycle, or the entry of `run()`. -/
theorem stepWith_cases {tab : Optab} {s t : State} (h : stepWith tab s = .next t) :
    (s.runState = .fetching ∧ t = cycle tab s) ∨
    (s.runState = .idle ∧ s.wasReset = true ∧ t = { s with runState := .fetching }) := by
  unfold stepWith at h
  split at h
  · rename_i hr; exact .inl ⟨hr, (Host.Outcome.next.inj h).symm⟩
  · nomatch h
  · rename_i hr
    exact .inr (by obtain ⟨_, h'⟩ := hostMove_cases (m := .run) h; simpa [hr] using h')
  · rename_i hr; simp [hostRun, hr] at h
  · rename_i hr; simp [hostRun, hr] at h

/-- Where an operation on a block answers a block, its table is the block's and the operation on the state answered. -/
theorem Block.answer_next {b c : Block} {o : Host.Outcome State Fault Refusal} (h : b.answer o = .next c) :
    o = .next c.state ∧ c.optab = b.optab := by
  cases o with
  | next t => cases h; exact ⟨rfl, rfl⟩
  | fault f => nomatch h
  | refused r => nomatch h

/-- Where a creation answers a block, its table is the one given and is well-formed (spec/70_reset_and_hazards.md R234). -/
theorem createWith_next {tab : Optab} {b : Block} (h : createWith tab = .next b) :
    tab.wf = true ∧ b = { optab := tab, state := State.created } := by
  unfold createWith at h
  split at h
  · rename_i hw; exact ⟨hw, (Host.Outcome.next.inj h).symm⟩
  · nomatch h

/-- An induction over the blocks a host can come to have, packaged once: the table is well-formed and stays, and what
creation has and every step and host move keeps holds of the state. -/
theorem Reachable.invariant (P : State → Prop) (h0 : P State.created)
    (hstep : ∀ tab s t, P s → stepWith tab s = .next t → P t) (hmove : ∀ m s t, P s → hostMove m s = .next t → P t) :
    ∀ b, Reachable b → b.optab.wf = true ∧ P b.state := by
  intro b hb
  induction hb with
  | created tab h => obtain ⟨hw, rfl⟩ := createWith_next h; exact ⟨hw, h0⟩
  | step _ h ih => obtain ⟨hs, ht⟩ := Block.answer_next h; exact ⟨ht ▸ ih.1, hstep _ _ _ ih.2 hs⟩
  | move m _ h ih => obtain ⟨hs, ht⟩ := Block.answer_next h; exact ⟨ht ▸ ih.1, hmove m _ _ ih.2 hs⟩

end Sys2Proof.Machine
end

