-- ==== Sys2Proof/Tests/Slice0.lean ====
section
/-! SUPPORT. The model's own tests. Expected results come from spec/95_test_vectors.md (the vector is named), from the
examples of the instruction rules, or from the encodings of spec/30_encoding.md R81, R86 written out by hand. The last part
shows, for every statement with hypotheses, a state and operands that meet them. -/

namespace Sys2Proof.Tests

open Sys2Proof.Machine

/-! Well-formedness: a row and a table that each check refuses. Every `Instr` is well-formed, since an operand's width is its
type; the check on a shape refuses a format that does not fit the mode. -/

theorem test_row_of_wrong_length_refused : OptabRow.wf ⟨0xA9, .immediate, 3⟩ = false := by decide

theorem test_none_row_with_operand_length_refused : OptabRow.wf ⟨0x00, .noneAddressing, 2⟩ = false := by decide

theorem test_table_with_ill_row_refused : Optab.wf [⟨0xE8, .noneAddressing, 1⟩, ⟨0xAD, .absolute, 2⟩] = false := by decide

theorem test_table_with_two_rows_for_a_byte_refused :
    Optab.wf [⟨0xE8, .noneAddressing, 1⟩, ⟨0xE8, .absolute, 3⟩] = false := by decide

theorem test_shape_of_wrong_format_refused : shapeFits .lda .absolute .f2 = false := by decide

theorem test_lda_without_operand_mode_refused : shapeFits .lda .noneAddressing .f1 = false := by decide

theorem test_implicit_with_operand_mode_refused : shapeFits .tax .zeroPage .f2 = false := by decide

theorem test_ill_formed_table_creates_no_block :
    (match createWith [⟨0xAD, .absolute, 2⟩] with | .refused .illFormedOptab => true | _ => false) = true := by decide

/-- A table with an entry that no handler is wired to (V-X5). -/
def tableWithNop : Optab := ⟨0xEA, .noneAddressing, 1⟩ :: defaultOptab

theorem test_block_keeps_its_table : ∃ b c : Block, createWith tableWithNop = .next b ∧ b.move .reset = .next c ∧
    c.optab = tableWithNop ∧ c.state = State.reset := ⟨_, _, rfl, rfl, rfl, rfl⟩

/-! Decoding: one word per constructor, written out from R81 and R86. -/

theorem test_decode_brk : decode [0x00, 0x42] = .ok (.brk, [0x42]) := by decide
theorem test_decode_ldaImmediate : decode [0xA9, 0x42] = .ok (.ldaImmediate 0x42, []) := by decide
theorem test_decode_ldaZeroPage : decode [0xA5, 0x10] = .ok (.ldaZeroPage 0x10, []) := by decide
theorem test_decode_ldaZeroPageX : decode [0xB5, 0xFE] = .ok (.ldaZeroPageX 0xFE, []) := by decide
theorem test_decode_ldaAbsolute : decode [0xAD, 0x34, 0x12] = .ok (.ldaAbsolute 0x1234, []) := by decide
theorem test_decode_ldaAbsoluteX : decode [0xBD, 0xFE, 0x02] = .ok (.ldaAbsoluteX 0x02FE, []) := by decide
theorem test_decode_ldaAbsoluteY : decode [0xB9, 0xF0, 0x10] = .ok (.ldaAbsoluteY 0x10F0, []) := by decide
theorem test_decode_ldaIndirectX : decode [0xA1, 0xFB] = .ok (.ldaIndirectX 0xFB, []) := by decide
theorem test_decode_ldaIndirectY : decode [0xB1, 0x86] = .ok (.ldaIndirectY 0x86, []) := by decide
theorem test_decode_staZeroPage : decode [0x85, 0x10] = .ok (.staZeroPage 0x10, []) := by decide
theorem test_decode_staZeroPageX : decode [0x95, 0xFC] = .ok (.staZeroPageX 0xFC, []) := by decide
theorem test_decode_staAbsolute : decode [0x8D, 0x07, 0x80] = .ok (.staAbsolute 0x8007, []) := by decide
theorem test_decode_staAbsoluteX : decode [0x9D, 0xFE, 0x02] = .ok (.staAbsoluteX 0x02FE, []) := by decide
theorem test_decode_staAbsoluteY : decode [0x99, 0xF0, 0x10] = .ok (.staAbsoluteY 0x10F0, []) := by decide
theorem test_decode_staIndirectX : decode [0x81, 0xFB] = .ok (.staIndirectX 0xFB, []) := by decide
theorem test_decode_staIndirectY : decode [0x91, 0x86] = .ok (.staIndirectY 0x86, []) := by decide
theorem test_decode_tax : decode [0xAA] = .ok (.tax, []) := by decide
theorem test_decode_inx : decode [0xE8] = .ok (.inx, []) := by decide
theorem test_decode_unlisted : decode [0xEA, 0x00] = .error (.unrecognizedOpcode 0xEA) := by decide
theorem test_decode_truncated : decode [0xAD, 0x34] = .error (.truncated 0xAD) := by decide
theorem test_table_word_absolute : decodeTableWord 24 0x1234AD = some (.ldaAbsolute 0x1234) := by decide
theorem test_table_word_without_operand_bits : decodeTableWord 8 0xBD = some (.ldaAbsoluteX 0x0000) := by decide

/-! Single steps, from the vectors of spec/95_test_vectors.md section 2. -/

/-- A running state with the registers given and memory zero but for the cells listed. -/
def running (a x y p : Byte) (pc : Word) (cells : List (Word × Byte)) : State :=
  cells.foldl (fun s c => s.write c.1 c.2)
    { State.reset with a := a, x := x, y := y, p := p, pc := pc, runState := .fetching }

/-- A reading of the state a step answers. -/
def after {β : Type} (o : Host.Outcome State Fault Refusal) (f : State → β) : Option β :=
  match o with
  | .next t => some (f t)
  | .fault _ => none
  | .refused _ => none

/-- `A X Y P PC`, the run state. -/
def regs (t : State) : Byte × Byte × Byte × Byte × Word × RunState := (t.a, t.x, t.y, t.p, t.pc, t.runState)

/-- V-L4: the six other bits are kept. -/
theorem test_ldaImmediate_keeps_bits : after (step (running 0 0 0 0x7D 0x8000 [(0x8000, 0xA9), (0x8001, 0x7F)])) regs =
    some (0x7F, 0, 0, 0x7D, 0x8002, .fetching) := by decide

/-- V-L5: the operand is fetched across the top of memory. -/
theorem test_ldaImmediate_at_top : after (step (running 0 0 0 0 0xFFFF [(0xFFFF, 0xA9), (0x0000, 0x42)])) regs =
    some (0x42, 0, 0, 0x00, 0x0001, .fetching) := by decide

/-- V-L6. -/
theorem test_ldaZeroPage : after (step (running 0 0 0 0 0x8000 [(0x8000, 0xA5), (0x8001, 0x10), (0x0010, 0x37)])) regs =
    some (0x37, 0, 0, 0x00, 0x8002, .fetching) := by decide

/-- V-L7: reads 0002, not 0102. -/
theorem test_ldaZeroPageX_wraps :
    after (step (running 0 4 0 0 0x8000 [(0x8000, 0xB5), (0x8001, 0xFE), (0x0002, 0x80), (0x0102, 0x11)])) regs =
    some (0x80, 4, 0, 0x80, 0x8002, .fetching) := by decide

/-- V-L8: reads 0000, not 0100; Z is set. -/
theorem test_ldaZeroPageX_wraps_to_zero :
    after (step (running 9 1 0 0 0x8000 [(0x8000, 0xB5), (0x8001, 0xFF), (0x0100, 0x11)])) regs =
    some (0x00, 1, 0, 0x02, 0x8002, .fetching) := by decide

/-- V-L9. -/
theorem test_ldaAbsolute : after (step (running 9 0 0 0 0x8000 [(0x8000, 0xAD), (0x8001, 0x34), (0x8002, 0x12)])) regs =
    some (0x00, 0, 0, 0x02, 0x8003, .fetching) := by decide

/-- V-L17: loads its own opcode byte. -/
theorem test_ldaAbsolute_own_opcode :
    after (step (running 0 0 0 0 0x8000 [(0x8000, 0xAD), (0x8001, 0x00), (0x8002, 0x80)])) regs =
    some (0xAD, 0, 0, 0x80, 0x8003, .fetching) := by decide

/-- V-L10: crosses the page. -/
theorem test_ldaAbsoluteX_page_cross :
    after (step (running 0 4 0 0 0x8000
      [(0x8000, 0xBD), (0x8001, 0xFE), (0x8002, 0x02), (0x0302, 0xAB), (0x0202, 0x11)])) regs =
    some (0xAB, 4, 0, 0x80, 0x8003, .fetching) := by decide

/-- V-L11: wraps at the top of memory. -/
theorem test_ldaAbsoluteX_wraps :
    after (step (running 0 1 0 0 0x8000 [(0x8000, 0xBD), (0x8001, 0xFF), (0x8002, 0xFF), (0x0000, 0x66)])) regs =
    some (0x66, 1, 0, 0x00, 0x8003, .fetching) := by decide

/-- V-L12. -/
theorem test_ldaAbsoluteY :
    after (step (running 0 0 0x20 0 0x8000 [(0x8000, 0xB9), (0x8001, 0xF0), (0x8002, 0x10), (0x1110, 0x01)])) regs =
    some (0x01, 0, 0x20, 0x00, 0x8003, .fetching) := by decide

/-- V-L13: the pointer's high byte comes from 0000. -/
theorem test_ldaIndirectX_pointer_wraps :
    after (step (running 0 4 0 0 0x8000
      [(0x8000, 0xA1), (0x8001, 0xFB), (0x00FF, 0x34), (0x0000, 0x12), (0x0100, 0x99), (0x1234, 0xAB), (0x9934, 0x11)]))
      regs = some (0xAB, 4, 0, 0x80, 0x8002, .fetching) := by decide

/-- V-L14. -/
theorem test_ldaIndirectX :
    after (step (running 0 4 0 0 0x8000
      [(0x8000, 0xA1), (0x8001, 0x20), (0x0024, 0x74), (0x0025, 0x20), (0x2074, 0x5A)])) regs =
    some (0x5A, 4, 0, 0x00, 0x8002, .fetching) := by decide

/-- V-L15. -/
theorem test_ldaIndirectY :
    after (step (running 0 0 0x10 0 0x8000
      [(0x8000, 0xB1), (0x8001, 0x86), (0x0086, 0x28), (0x0087, 0x40), (0x4038, 0x7F)])) regs =
    some (0x7F, 0, 0x10, 0x00, 0x8002, .fetching) := by decide

/-- V-L16: the pointer wraps in page 0 and the sum wraps at 65536. -/
theorem test_ldaIndirectY_wraps :
    after (step (running 0 0 2 0 0x8000
      [(0x8000, 0xB1), (0x8001, 0xFF), (0x00FF, 0xFF), (0x0000, 0xFF), (0x0100, 0x12), (0x0001, 0xC3)])) regs =
    some (0xC3, 0, 2, 0x80, 0x8002, .fetching) := by decide

/-- V-S1. -/
theorem test_staZeroPage :
    after (step (running 0x37 0 0 0x80 0x8000 [(0x8000, 0x85), (0x8001, 0x10)])) (fun t => (t.read 0x0010, t.p, t.pc)) =
    some (0x37, 0x80, 0x8002) := by decide

/-- V-S10: a store of zero does not set Z. -/
theorem test_staZeroPage_of_zero :
    after (step (running 0 0 0 0 0x8000 [(0x8000, 0x85), (0x8001, 0x00), (0x0000, 0xFF)])) (fun t => (t.read 0, t.p)) =
    some (0x00, 0x00) := by decide

/-- V-S2: lands in page 0. -/
theorem test_staZeroPageX_wraps :
    after (step (running 0x12 4 0 0 0x8000 [(0x8000, 0x95), (0x8001, 0xFC)]))
      (fun t => (t.read 0x0000, t.read 0x0100, t.pc)) = some (0x12, 0x00, 0x8002) := by decide

/-- V-S8: over its own opcode byte. -/
theorem test_staAbsolute_own_opcode :
    after (step (running 0 0 0 0 0x8000 [(0x8000, 0x8D), (0x8001, 0x00), (0x8002, 0x80)]))
      (fun t => (t.read 0x8000, t.pc)) = some (0x00, 0x8003) := by decide

/-- V-S9: the operand word straddles the top of memory. -/
theorem test_staAbsolute_at_top :
    after (step (running 0x77 0 0 0 0xFFFE [(0xFFFE, 0x8D), (0xFFFF, 0x10), (0x0000, 0x20)]))
      (fun t => (t.read 0x2010, t.pc)) = some (0x77, 0x0001) := by decide

/-- V-S4: the page cross is kept. -/
theorem test_staAbsoluteX_page_cross :
    after (step (running 0xAB 4 0 0x80 0x8000 [(0x8000, 0x9D), (0x8001, 0xFE), (0x8002, 0x02)]))
      (fun t => (t.read 0x0302, t.read 0x0202, t.p, t.pc)) = some (0xAB, 0x00, 0x80, 0x8003) := by decide

/-- V-S5: wraps at the top of memory. -/
theorem test_staAbsoluteY_wraps :
    after (step (running 0x5A 0 1 0 0x8000 [(0x8000, 0x99), (0x8001, 0xFF), (0x8002, 0xFF)]))
      (fun t => (t.read 0x0000, t.pc)) = some (0x5A, 0x8003) := by decide

/-- V-S6. -/
theorem test_staIndirectX :
    after (step (running 0xAB 4 0 0x80 0x8000 [(0x8000, 0x81), (0x8001, 0xFB), (0x00FF, 0x34), (0x0000, 0x12)]))
      (fun t => (t.read 0x1234, t.p, t.pc)) = some (0xAB, 0x80, 0x8002) := by decide

/-- V-S7. -/
theorem test_staIndirectY :
    after (step (running 0x99 0 0x10 0x80 0x8000 [(0x8000, 0x91), (0x8001, 0x86), (0x0086, 0x28), (0x0087, 0x40)]))
      (fun t => (t.read 0x4038, t.p, t.pc)) = some (0x99, 0x80, 0x8002) := by decide

/-- V-T3: the six other bits are kept, Z and N are cleared. -/
theorem test_tax_keeps_bits : after (step (running 0x7F 0 0 0xFF 0x8000 [(0x8000, 0xAA)])) regs =
    some (0x7F, 0x7F, 0, 0x7D, 0x8001, .fetching) := by decide

/-- V-T2. -/
theorem test_tax_zero : after (step (running 0 0x55 0 0x80 0x8000 [(0x8000, 0xAA)])) regs =
    some (0, 0, 0, 0x02, 0x8001, .fetching) := by decide

/-- V-I6: the wrap of `X`, at the top of memory, records no carry. -/
theorem test_inx_wraps : after (step (running 0x11 0xFF 0x22 0xFD 0xFFFF [(0xFFFF, 0xE8)])) regs =
    some (0x11, 0x00, 0x22, 0x7F, 0x0000, .fetching) := by decide

/-- V-I2. -/
theorem test_inx_sets_negative : after (step (running 0x11 0x7F 0x22 0 0x8000 [(0x8000, 0xE8)])) regs =
    some (0x11, 0x80, 0x22, 0x80, 0x8001, .fetching) := by decide

/-- V-B1. -/
theorem test_brk : after (step (running 0x05 1 2 0x80 0x8002 [])) regs = some (0x05, 1, 2, 0x80, 0x8003, .halted) := by decide

/-- V-B2. -/
theorem test_brk_at_top : after (step (running 0 0 0 0 0xFFFF [])) regs = some (0, 0, 0, 0, 0x0000, .halted) := by decide

/-- V-X1. -/
theorem test_unlisted_opcode_faults :
    after (step (running 0x80 0x81 0 0x80 0x8004 [(0x8004, 0xEA)])) (fun t => (t.a, t.x, t.pc, t.runState, t.faultRecord)) =
    some (0x80, 0x81, 0x8005, .faulted, some (.unrecognizedOpcode 0xEA)) := by decide

/-- V-X5: another table, with a row for a byte without a handler. -/
theorem test_not_yet_implemented :
    after (stepWith [⟨0xEA, .noneAddressing, 1⟩] (running 1 2 3 2 0x8000 [(0x8000, 0xEA)]))
      (fun t => (t.a, t.p, t.pc, t.runState, t.faultRecord)) =
    some (1, 2, 0x8001, .faulted, some (.notYetImplemented 0xEA)) := by decide

/-- V-X6: another table, with a resolving handler's byte given NoneAddressing. -/
theorem test_unsupported_mode :
    after (stepWith [⟨0xA9, .noneAddressing, 1⟩] (running 1 2 3 2 0x8000 [(0x8000, 0xA9)]))
      (fun t => (t.a, t.p, t.pc, t.runState, t.faultRecord)) =
    some (1, 2, 0x8001, .faulted, some (.unsupportedAddressingMode .noneAddressing)) := by decide

/-- What a run under a table of one's own returns, from reset with one byte placed at 0x0000. -/
def runOf (tab : Optab) (fuel : Nat) (b : Byte) : Option RunResult :=
  (Block.run fuel ⟨tab, State.reset.write 0x0000 b⟩).map Prod.fst

/-- V-X5 and V-X6 as runs: `run()` ends by each of the three faults under some table, and by the halt. -/
theorem test_run_ends_by_each_fault :
    runOf tableWithNop 1 0xEA = some (.faulted (.notYetImplemented 0xEA)) ∧
    runOf [⟨0xA9, .noneAddressing, 1⟩] 1 0xA9 = some (.faulted (.unsupportedAddressingMode .noneAddressing)) ∧
    runOf defaultOptab 1 0xEA = some (.faulted (.unrecognizedOpcode 0xEA)) ∧
    runOf [] 1 0x00 = some (.faulted (.unrecognizedOpcode 0x00)) ∧
    runOf tableWithNop 2 0xE8 = some .halted ∧ runOf tableWithNop 1 0xE8 = none := by decide

/-- A table whose length disagrees with its mode: step 5 follows the length (R87, U11). -/
theorem test_length_of_the_table_is_followed :
    after (stepWith [⟨0xA9, .immediate, 3⟩] (running 0 0 0 0 0x8000 [(0x8000, 0xA9), (0x8001, 0x05)])) regs =
    some (5, 0, 0, 0, 0x8003, .fetching) := by decide

/-- V-A7: the one mode no row of the default table uses. -/
theorem test_resolve_zeroPageY : resolve .zeroPageY (running 0 0 2 0 0x8001 [(0x8001, 0xFF)]) = .ok 0x0001 := by decide

/-- V-F9 and V-F11. -/
theorem test_flag_updater : updateZN 0x00 0xFF = 0x7F ∧ updateZN 0x80 0x7D = 0xFD := by decide

/-- V-M5 and V-M6: a word read wraps at the top of memory and not in page 0. -/
theorem test_word_read :
    (running 0 0 0 0 0 [(0xFFFF, 0x34), (0x0000, 0x12)]).readWord 0xFFFF = 0x1234 ∧
    (running 0 0 0 0 0 [(0x00FF, 0x34), (0x0100, 0x12), (0x0000, 0x99)]).readWord 0x00FF = 0x1234 := by decide

/-- Writing zero removes the entry: memory stays in its canonical form. -/
theorem test_write_of_blank_removes : ((State.reset.write 0x10 0x37).write 0x10 0x00).mem = [] := by decide

/-- V-R2: the vector is little-endian. -/
theorem test_reset_vector :
    after (hostReset { running 1 2 3 4 5 [(0xFFFC, 0x34), (0xFFFD, 0x12)] with runState := .halted }) regs =
    some (0, 0, 0, 0, 0x1234, .idle) := by decide

/-- V-R3. -/
theorem test_load :
    after (hostLoad [0xA9, 0x05, 0x00] State.reset)
      (fun t => (t.read 0x8000, t.read 0x8001, t.read 0x8002, t.read 0xFFFC, t.read 0xFFFD, t.pc)) =
    some (0xA9, 0x05, 0x00, 0x00, 0x80, 0x0000) := by decide

/-- V-B3, V-X7: `run()` after a halt or a fault is refused; the step there is refused the same. -/
theorem test_run_after_end_refused :
    (match hostRun { State.reset with runState := .halted }, step { State.reset with runState := .faulted } with
      | .refused .runAfterHalt, .refused .runAfterFault => true
      | _, _ => false) = true := by decide

/-- The first step from reset is the host's `run()`. -/
theorem test_first_step_is_run : after (step State.reset) (fun t => t.runState) = some .fetching := by decide

/-- An instruction placed for the next fetch is the one the next step runs. -/
theorem test_withFetchWord :
    after (step (State.reset.withFetchWord 16 0xC0A9)) regs = some (0xC0, 0, 0, 0x80, 0x0002, .fetching) := by decide

/-! Witnesses: for each statement with hypotheses, what meets them. -/

/-- A running state whose opcode byte is the one given, with operand bytes 0x10 and 0x02. -/
def at8000 (op : Byte) : State := running 0x37 4 2 0x7C 0x8000 [(0x8000, op), (0x8001, 0x10), (0x8002, 0x02)]

theorem witness_EncodeOfDecodedGivesTheBytes :
    decode [0xAD, 0x34, 0x12, 0xEA] = .ok (.ldaAbsolute 0x1234, [0xEA]) := by decide

theorem witness_StepRunsTheDecodedInstruction : (at8000 0xBD).runState = .fetching ∧
    decode [(at8000 0xBD).read (at8000 0xBD).pc, (at8000 0xBD).read ((at8000 0xBD).pc + 1),
      (at8000 0xBD).read ((at8000 0xBD).pc + 2)] = .ok (.ldaAbsoluteX 0x0210, []) := by decide

theorem witness_LatchAndSecondAdvance_unchanged : State.reset.beginInstr.pc = State.reset.beginInstr.pcPre := by decide

theorem witness_LatchAndSecondAdvance_changed :
    ({ State.reset with pc := 0x0005 } : State).pc ≠ ({ State.reset with pc := 0x0005 } : State).pcPre := by decide

theorem witness_LatchAndSecondAdvance_stopped :
    (cycle defaultOptab (at8000 0x00)).runState ≠ .fetching ∧ (cycle defaultOptab (at8000 0xEA)).runState ≠ .fetching := by
  decide

theorem witness_LdaImmediateLoadsItsOperand :
    (running 0 0 0 0 0xFFFF [(0xFFFF, 0xA9), (0x0000, 0x42)]).runState = .fetching ∧
    (running 0 0 0 0 0xFFFF [(0xFFFF, 0xA9), (0x0000, 0x42)]).read 0xFFFF = 0xA9 := by decide

theorem witness_BrkHaltsAndNothingElse : ∃ s t u : State, s.runState = .halted ∧
    hostMove (.memWrite 0x0010 0x77) s = .next t ∧ hostMove .reset s = .next u :=
  ⟨{ State.reset with runState := .halted }, _, _, rfl, rfl, rfl⟩

theorem witness_FrameOfLoads : ∃ t, Instr.handler (.ldaIndirectX 0x10) = .lda ∧
    exec (.ldaIndirectX 0x10) (at8000 0xA1) = .next t := ⟨_, rfl, rfl⟩

theorem witness_FrameOfStores : ∃ t ea, Instr.handler (.staIndirectY 0x10) = .sta ∧
    exec (.staIndirectY 0x10) (at8000 0x91) = .next t ∧
    storeAddress (.staIndirectY 0x10) (at8000 0x91).beginInstr = some ea ∧ (0x1234 : Word) ≠ ea :=
  ⟨_, _, rfl, rfl, rfl, by decide⟩

theorem witness_FrameOfRegisterInstructions : ∃ t u, exec .tax (at8000 0xAA) = .next t ∧ exec .inx (at8000 0xE8) = .next u :=
  ⟨_, _, rfl, rfl⟩

theorem witness_LdaHandlerUnderAnyTable_operand : (at8000 0xA9).runState = .fetching ∧
    Optab.lookup [⟨0xA9, .zeroPageY, 2⟩] ((at8000 0xA9).read (at8000 0xA9).pc) = some ⟨0xA9, .zeroPageY, 2⟩ ∧
    handlerOf ((at8000 0xA9).read (at8000 0xA9).pc) = some .lda ∧ Mode.zeroPageY ≠ .noneAddressing := by decide

theorem witness_LdaHandlerUnderAnyTable_none : (at8000 0xA9).runState = .fetching ∧
    Optab.lookup [⟨0xA9, .noneAddressing, 1⟩] ((at8000 0xA9).read (at8000 0xA9).pc) = some ⟨0xA9, .noneAddressing, 1⟩ ∧
    handlerOf ((at8000 0xA9).read (at8000 0xA9).pc) = some .lda := by decide

theorem witness_StaHandlerUnderAnyTable_operand : (at8000 0x85).runState = .fetching ∧
    Optab.lookup [⟨0x85, .immediate, 2⟩] ((at8000 0x85).read (at8000 0x85).pc) = some ⟨0x85, .immediate, 2⟩ ∧
    handlerOf ((at8000 0x85).read (at8000 0x85).pc) = some .sta ∧ Mode.immediate ≠ .noneAddressing := by decide

theorem witness_StaHandlerUnderAnyTable_none : (at8000 0x85).runState = .fetching ∧
    Optab.lookup [⟨0x85, .noneAddressing, 1⟩] ((at8000 0x85).read (at8000 0x85).pc) = some ⟨0x85, .noneAddressing, 1⟩ ∧
    handlerOf ((at8000 0x85).read (at8000 0x85).pc) = some .sta := by decide

theorem witness_ResolvingNoneAddressingIsFatal : ∃ t, step (at8000 0xEA) = .next t ∧ t.runState = .faulted ∧
    (∃ f, handle .lda .noneAddressing State.reset = .error f) := ⟨_, rfl, rfl, _, rfl⟩

theorem witness_ZeroPageModesStayInPageZero :
    resolve .zeroPage (running 0 0 0 0 0x8001 [(0x8001, 0xFF)]) = .ok 0x00FF ∧
    resolve .zeroPageX (running 0 0xFF 0 0 0x8001 [(0x8001, 0xFF)]) = .ok 0x00FE ∧
    resolve .zeroPageY (running 0 0 0x80 0 0x8001 [(0x8001, 0x80)]) = .ok 0x0000 := by decide

theorem witness_IndirectPointerReadIsNotAWordRead : (0xFE : Byte) ≠ 0xFF := by decide

theorem witness_ByteWriteIsReadBackAndAlone : (0x0000 : Word) ≠ 0xFFFF := by decide

theorem witness_WordWriteRoundTrip : (0x0001 : Word) ≠ 0xFFFF ∧ (0x0001 : Word) ≠ 0xFFFF + 1 := by decide

theorem witness_LoadSeesTheLatestStore : ∃ t, Instr.handler (.staZeroPageX 0xFC) = .sta ∧
    storeAddress (.staZeroPageX 0xFC) (at8000 0x95).beginInstr = some 0x0000 ∧
    exec (.staZeroPageX 0xFC) (at8000 0x95) = .next t := ⟨_, rfl, rfl, rfl⟩

/-- The store lands on the next opcode byte. -/
theorem witness_NextFetchSeesTheStore : ∃ t, storeAddress (.staAbsolute 0x8003) (at8000 0x8D).beginInstr = some 0x8003 ∧
    exec (.staAbsolute 0x8003) (at8000 0x8D) = .next t ∧ t.pc = 0x8003 := ⟨_, rfl, rfl, rfl⟩

theorem witness_MemoryChangesOnlyByStoresLoadsAndHostWrites : ∃ t u v w : State,
    step (at8000 0xA5) = .next t ∧ step (at8000 0x85) = .next u ∧ step State.reset = .next v ∧
    hostMove .reset State.reset = .next w := ⟨_, _, _, _, rfl, rfl, rfl, rfl⟩

theorem witness_MemoriesThatReadAlikeAreEqual : Memory.wf [(0x10, 0x37), (0xFFFF, 0x01)] ∧
    Memory.wf (Memory.write (Memory.write [] 0xFFFF 0x01) 0x10 0x37) ∧
    ∀ addr : Word, Memory.read [(0x10, 0x37), (0xFFFF, 0x01)] addr.toNat =
      Memory.read (Memory.write (Memory.write [] 0xFFFF 0x01) 0x10 0x37) addr.toNat :=
  ⟨by decide, by decide, fun _ => rfl⟩

theorem witness_ZeroAndNegativeFlags : ∃ t u v w r : State, exec (.ldaImmediate 0x80) State.reset = .next t ∧
    exec .tax State.reset = .next u ∧ exec (.staZeroPage 0x10) State.reset = .next v ∧
    exec .brk State.reset = .next w ∧ hostReset State.reset = .next r := ⟨_, _, _, _, _, rfl, rfl, rfl, rfl, rfl⟩

theorem reset_meets_Inv : State.reset.Inv := ⟨by decide, by decide, by decide, by decide⟩

theorem witness_StepKeepsTheInvariant : ∃ t, State.reset.Inv ∧ step State.reset = .next t := ⟨_, reset_meets_Inv, rfl⟩

theorem witness_HostMovesKeepTheInvariant : ∃ t u v w, State.reset.Inv ∧
    hostMove (.memWrite 0xFFFF 0x01) State.reset = .next t ∧ hostMove (.load [0xE8, 0x00]) State.reset = .next u ∧
    hostMove .reset State.reset = .next v ∧ hostMove .run State.reset = .next w :=
  ⟨_, _, _, _, reset_meets_Inv, rfl, rfl, rfl, rfl⟩

theorem witness_StepKeepsYAndTheSixBits : ∃ t u, step (at8000 0xB5) = .next t ∧ step (at8000 0xEA) = .next u :=
  ⟨_, _, rfl, rfl⟩

theorem witness_AfterAResetYIsZeroAndPHasThreeValues :
    Reachable ⟨defaultOptab, State.reset⟩ ∧ Reachable ⟨tableWithNop, State.reset⟩ ∧ State.reset.wasReset = true :=
  ⟨.move .reset (.created defaultOptab (b := ⟨_, State.created⟩) rfl) rfl,
    .move .reset (.created tableWithNop (b := ⟨_, State.created⟩) rfl) rfl, rfl⟩

/-- A state with `P = 0x80` in which a load changes `P`, under both tables, and a host move. -/
theorem witness_StepKeepsYZeroAndTheThreeValuesOfP : ∃ t u v : State,
    (running 0x80 0 0 0x80 0x8000 [(0x8000, 0xA9)]).ResetInv ∧
    step (running 0x80 0 0 0x80 0x8000 [(0x8000, 0xA9)]) = .next t ∧
    stepWith tableWithNop (running 0x80 0 0 0x80 0x8000 [(0x8000, 0xA9)]) = .next u ∧
    State.reset.ResetInv ∧ hostMove (.load [0xE8]) State.reset = .next v :=
  ⟨_, _, _, fun _ => ⟨rfl, .inr (.inr rfl)⟩, rfl, rfl, fun _ => ⟨rfl, .inl rfl⟩, rfl⟩

theorem witness_FaultsByPriorityAndTheStateTheyLeave : (at8000 0xEA).runState = .fetching ∧
    Optab.lookup defaultOptab ((at8000 0xEA).read (at8000 0xEA).pc) = none ∧
    Optab.lookup [⟨0xEA, .noneAddressing, 1⟩] ((at8000 0xEA).read (at8000 0xEA).pc) = some ⟨0xEA, .noneAddressing, 1⟩ ∧
    handlerOf ((at8000 0xEA).read (at8000 0xEA).pc) = none ∧
    Optab.lookup [⟨0x85, .noneAddressing, 1⟩] ((at8000 0x85).read (at8000 0x85).pc) = some ⟨0x85, .noneAddressing, 1⟩ ∧
    handlerOf ((at8000 0x85).read (at8000 0x85).pc) = some .sta ∧ Handler.resolves .sta = true := by decide

theorem witness_UnrecognizedOpcodeExactlyWhereNoEntry : (at8000 0xEA).runState = .fetching ∧
    (at8000 0xEA).read (at8000 0xEA).pc = 0xEA ∧ (at8000 0xE8).runState = .fetching := by decide

theorem witness_RunGoesOnExactlyAtTheSeventeenBytes : (at8000 0xE8).runState = .fetching ∧
    (at8000 0x00).runState = .fetching ∧ (at8000 0xFF).runState = .fetching := by decide

theorem witness_RunReturnsHaltedOrFaulted :
    run defaultOptab 1 State.reset = some (.halted, { State.reset with pc := 0x0001, pcPre := 0x0001, runState := .halted }) ∧
    (run defaultOptab 1 (State.reset.write 0x0000 0xEA)).map Prod.fst = some (.faulted (.unrecognizedOpcode 0xEA)) := by
  decide

theorem witness_HostMovesByRunState : ({ State.reset with runState := .halted } : State).runState = .halted ∧
    ({ State.reset with runState := .faulted } : State).runState = .faulted := by decide

theorem witness_ResetLeavesItsValues : ∃ t, hostReset { at8000 0xE8 with runState := .faulted } = .next t := ⟨_, rfl⟩

theorem witness_ResetNeverFailsAndRepeats : State.reset.runState = .idle ∧ (at8000 0xE8).runState = .fetching ∧
    (∃ t, step (at8000 0xE8) = .next t) ∧ (∃ t, hostReset State.created = .next t) ∧
    ∀ b : Word, State.created.read b = 0x00 := ⟨rfl, rfl, ⟨_, rfl⟩, ⟨_, rfl⟩, fun _ => rfl⟩

/-- The longest image `load` accepts: it reaches the vector. -/
theorem witness_LoadPlacesTheImageAndTheVector :
    ∃ t, hostLoad (List.replicate 0x8000 0xE8) State.reset = .next t := by
  refine ⟨State.reset.doLoad (List.replicate 0x8000 0xE8), ?_⟩
  have h : ¬ Config.maxImage < (List.replicate 0x8000 (0xE8 : Byte)).length := by
    rw [List.length_replicate]; decide
  unfold hostLoad
  rw [if_neg (by decide), if_neg h]

theorem witness_LoadAndRunStartsAtTheLoadAddress : State.reset.runState = .idle ∧
    ([0xA9, 0x05, 0x00] : List Byte).length ≤ 0x8000 := by decide

theorem witness_HostWriteIsOneByteWrite : State.reset.runState = .idle ∧ (at8000 0xE8).runState = .fetching := by decide

theorem witness_ObservationByRunState : (at8000 0xE8).runState = .fetching ∧
    (State.reset.runState = .idle ∧ State.reset.wasReset = true) ∧
    (State.created.runState = .idle ∧ State.created.wasReset = false) := ⟨rfl, ⟨rfl, rfl⟩, rfl, rfl⟩

end Sys2Proof.Tests
end

namespace Sys2Proof.Machine

/-- The flag updater sets Z and N from the byte it is given (spec/41_flag_update.md R120, R121). -/
theorem flagsFrom_updateZN (r p : Byte) : FlagsFrom r (updateZN r p) := by
  constructor
  · rw [getLsbD_updateZN, if_neg (by decide), if_pos rfl, beq_iff_eq]
  · rw [getLsbD_updateZN, if_pos rfl]

/-- Any `LDA` sets the flags from the byte it leaves in `A` (spec/10_state.md R28, R29). -/
theorem exec_lda_flags {i : Instr} {s t : State} (hi : i.handler = .lda) (h : exec i s = .next t) :
    FlagsFrom t.a t.p := by
  obtain ⟨v, hv⟩ := exec_lda i s hi
  cases hv.symm.trans h
  exact flagsFrom_updateZN v s.p

/-- `TAX` and `INX` set the flags from the new `X` (R28, R29). -/
theorem exec_toX_flags {i : Instr} {s t : State} (hi : i.handler = .tax ∨ i.handler = .inx)
    (h : exec i s = .next t) : FlagsFrom t.x t.p := by
  obtain ⟨v, hv⟩ := exec_toX i s hi
  cases hv.symm.trans h
  exact flagsFrom_updateZN v s.p

/-- `STA` and `BRK` leave the whole status byte as it was (R28; decision D19, log entry 12). -/
theorem exec_p_of_sta_or_brk {i : Instr} {s t : State} (hi : i.handler = .sta ∨ i.handler = .brk)
    (h : exec i s = .next t) : t.p = s.p := by
  rcases exec_cases i s with ⟨v, hl, _⟩ | ⟨ea, _, _, hv⟩ | ⟨v, hx, _⟩ | ⟨_, hv⟩
  · simp [hl] at hi
  · cases hv.symm.trans h; rfl
  · rcases hx with hx | hx <;> simp [hx] at hi
  · cases hv.symm.trans h; rfl

/-- Reset leaves the status byte 0x00 (spec/70_reset_and_hazards.md R230). -/
theorem hostReset_p {s t : State} (h : hostReset s = .next t) : t.p = 0x00 := by
  obtain ⟨_, ⟨_, _, hm, _⟩ | ⟨_, hm, _⟩ | ⟨_, rfl⟩ | ⟨hm, _⟩⟩ := hostMove_cases (m := .reset) h
  · nomatch hm
  · nomatch hm
  · exact State.doReset_p s
  · nomatch hm

/-- A meaning that never reads the status byte: started with any other one it answers the same state, up to the status
byte (spec/10_state.md R28, R29). -/
def IgnoresStatus (f : State → Host.Outcome State Fault Refusal) : Prop :=
  ∀ (s t : State) (q : Byte), f s = .next t → ∃ u, f { s with p := q } = .next u ∧ { u with p := t.p } = t

/-- An operand's address that does not depend on the status byte. -/
def AddressIgnoresStatus (ea : State → Word) : Prop := ∀ (s : State) (q : Byte), ea { s with p := q } = ea s

/-- A meaning that answers `g s` in every state ignores the status byte where `g` does, up to the status byte. -/
theorem ignoresStatus_of_eq {f : State → Host.Outcome State Fault Refusal} {g : State → State}
    (hf : ∀ s, f s = .next (g s)) (hg : ∀ (s : State) (q : Byte), { g { s with p := q } with p := (g s).p } = g s) :
    IgnoresStatus f := by
  intro s t q h
  cases (hf s).symm.trans h
  exact ⟨_, hf _, hg s q⟩

/-- A load's cycle reads the status byte only to keep its six other bits, so it ignores it where its address does. -/
theorem loadCycle_ignoresStatus (len : Nat) {ea : State → Word} (hea : AddressIgnoresStatus ea) :
    IgnoresStatus (loadCycle len ea) := by
  refine ignoresStatus_of_eq (loadCycle_eq len ea) fun s q => ?_
  have haddr : ea { s with p := q }.beginInstr = ea s.beginInstr := hea s.beginInstr q
  have hread : ∀ k : Word, { s with p := q }.read k = s.read k := State.read_of_mem_eq rfl
  rw [haddr, hread]

/-- A store's cycle ignores the status byte where its address does. -/
theorem storeCycle_ignoresStatus (len : Nat) {ea : State → Word} (hea : AddressIgnoresStatus ea) :
    IgnoresStatus (storeCycle len ea) := by
  refine ignoresStatus_of_eq (storeCycle_eq len ea) fun s q => ?_
  have haddr : ea { s with p := q }.beginInstr = ea s.beginInstr := hea s.beginInstr q
  rw [haddr]

/-- No instruction reads a flag: every addressing mode computes its address from the operand, `X`, `Y` and memory. -/
theorem exec_ignoresStatus (i : Instr) : IgnoresStatus (exec i) := by
  cases i with
  | brk => exact ignoresStatus_of_eq execBrk_eq fun _ _ => rfl
  | ldaImmediate d8 => exact ignoresStatus_of_eq (execLdaImmediate_eq d8) fun _ _ => rfl
  | ldaZeroPage d8 => exact loadCycle_ignoresStatus 2 (ea := eaZeroPage d8) fun _ _ => rfl
  | ldaZeroPageX d8 => exact loadCycle_ignoresStatus 2 (ea := eaZeroPageX d8) fun _ _ => rfl
  | ldaAbsolute a16 => exact loadCycle_ignoresStatus 3 (ea := eaAbsolute a16) fun _ _ => rfl
  | ldaAbsoluteX a16 => exact loadCycle_ignoresStatus 3 (ea := eaAbsoluteX a16) fun _ _ => rfl
  | ldaAbsoluteY a16 => exact loadCycle_ignoresStatus 3 (ea := eaAbsoluteY a16) fun _ _ => rfl
  | ldaIndirectX d8 => exact loadCycle_ignoresStatus 2 (ea := eaIndirectX d8) fun _ _ => rfl
  | ldaIndirectY d8 => exact loadCycle_ignoresStatus 2 (ea := eaIndirectY d8) fun _ _ => rfl
  | staZeroPage d8 => exact storeCycle_ignoresStatus 2 (ea := eaZeroPage d8) fun _ _ => rfl
  | staZeroPageX d8 => exact storeCycle_ignoresStatus 2 (ea := eaZeroPageX d8) fun _ _ => rfl
  | staAbsolute a16 => exact storeCycle_ignoresStatus 3 (ea := eaAbsolute a16) fun _ _ => rfl
  | staAbsoluteX a16 => exact storeCycle_ignoresStatus 3 (ea := eaAbsoluteX a16) fun _ _ => rfl
  | staAbsoluteY a16 => exact storeCycle_ignoresStatus 3 (ea := eaAbsoluteY a16) fun _ _ => rfl
  | staIndirectX d8 => exact storeCycle_ignoresStatus 2 (ea := eaIndirectX d8) fun _ _ => rfl
  | staIndirectY d8 => exact storeCycle_ignoresStatus 2 (ea := eaIndirectY d8) fun _ _ => rfl
  | tax => exact ignoresStatus_of_eq execTax_eq fun _ _ => rfl
  | inx => exact ignoresStatus_of_eq execInx_eq fun _ _ => rfl

/-- Settles O43: the flag clauses by the instruction's handler, the last one instruction by instruction. -/
theorem zeroAndNegativeFlags : Obligations.ZeroAndNegativeFlags := by
  refine ⟨fun i s t h => ⟨fun hi => exec_lda_flags hi h, fun hi => exec_toX_flags hi h, fun hi => ?_⟩,
    fun s t h => ?_, exec_ignoresStatus⟩
  · simp [State.flagZ, State.flagN, exec_p_of_sta_or_brk hi h]
  · simp [State.flagZ, State.flagN, hostReset_p h]

end Sys2Proof.Machine

namespace Sys2Proof.Machine

/-- The next pointer address in page 0 is the next address of memory for every pointer but 0xFF
(spec/20_memory.md R70). -/
theorem zext16_add_one {b : Byte} (h : b ≠ 0xFF) : zext16 (b + 1) = zext16 b + 1 := by
  have hb : b.toNat ≠ 255 := fun e => h (BitVec.eq_of_toNat_eq e)
  apply BitVec.eq_of_toNat_eq
  rw [zext16_toNat, BitVec.toNat_add, BitVec.toNat_add, zext16_toNat]
  have h1 : (1 : Byte).toNat = 1 := rfl
  have h1' : (1 : Word).toNat = 1 := rfl
  omega

/-- Settles O35: the two reads differ only in the address of the high byte, so the first clause turns on whether the
pointer's successor stays in page 0. -/
theorem indirectPointerReadIsNotAWordRead : Obligations.IndirectPointerReadIsNotAWordRead := by
  refine fun s => ⟨fun ptr hptr => ?_, rfl, rfl⟩
  unfold zeroPagePointer State.readWord
  rw [zext16_add_one hptr]

/-- Settles O36, by what a state reads after one byte is written. -/
theorem byteWriteIsReadBackAndAlone : Obligations.ByteWriteIsReadBackAndAlone := by
  refine fun s addr b => ⟨?_, fun k hk => ?_⟩
  · rw [State.read_write, if_pos rfl]
  · rw [State.read_write, if_neg hk]

/-- Every instruction but `STA` leaves the whole of memory as it was (spec/20_memory.md R51). -/
theorem exec_mem_of_not_sta {i : Instr} {s t : State} (hi : i.handler ≠ .sta) (h : exec i s = .next t) :
    t.mem = s.mem := by
  rcases exec_cases i s with ⟨v, _, hv⟩ | ⟨ea, hsta, _⟩ | ⟨v, _, hv⟩ | ⟨_, hv⟩
  · cases hv.symm.trans h; rfl
  · exact absurd hsta hi
  · cases hv.symm.trans h; rfl
  · cases hv.symm.trans h; rfl

/-- Settles O40: the step and the host move each by its inversion lemma; what is neither a store, `mem_write` nor `load`
leaves the memory of the state as it was. -/
theorem memoryChangesOnlyByStoresLoadsAndHostWrites : Obligations.MemoryChangesOnlyByStoresLoadsAndHostWrites := by
  refine ⟨fun b => rfl, fun s t h => ?_, fun m s t h => ?_⟩
  · rcases step_cases h with ⟨i, hr, hf, he⟩ | ⟨_, _, rfl⟩ | ⟨_, _, rfl⟩
    · by_cases hi : i.handler = .sta
      · exact .inr ⟨i, hr, hf, hi⟩
      · exact .inl (State.read_of_mem_eq (exec_mem_of_not_sta hi he))
    · exact .inl (State.read_of_mem_eq rfl)
    · exact .inl (State.read_of_mem_eq rfl)
  · obtain ⟨_, ⟨addr, b, rfl, _⟩ | ⟨image, rfl, _⟩ | ⟨_, rfl⟩ | ⟨_, _, _, rfl⟩⟩ := hostMove_cases h
    · exact .inr (.inl ⟨addr, b, rfl⟩)
    · exact .inr (.inr ⟨image, rfl⟩)
    · exact .inl (State.read_of_mem_eq (State.doReset_mem s))
    · exact .inl (State.read_of_mem_eq rfl)

/-- The core is running exactly in Fetching and Dispatching (spec/20_memory.md R66). -/
theorem State.running_eq_true_iff (s : State) :
    s.running = true ↔ s.runState = .fetching ∨ s.runState = .dispatching := by
  unfold State.running
  cases s.runState <;> decide

/-- The core is not running exactly in Idle, Halted and Faulted (R66). -/
theorem State.running_eq_false_iff (s : State) :
    s.running = false ↔ s.runState = .idle ∨ s.runState = .halted ∨ s.runState = .faulted := by
  unfold State.running
  cases s.runState <;> decide

/-- Settles O58: `mem_write` branches on whether the core is running, which the run state decides. -/
theorem hostWriteIsOneByteWrite : Obligations.HostWriteIsOneByteWrite := by
  refine fun addr b s => ⟨fun hr => ?_, fun hr t h => ?_⟩
  · rw [hostMemWrite, s.running_eq_false_iff.2 hr, if_neg Bool.false_ne_true]
  · obtain ⟨hstopped, _⟩ := hostMove_cases (m := .memWrite addr b) h
    exact Bool.false_ne_true (hstopped.symm.trans (s.running_eq_true_iff.2 hr))

end Sys2Proof.Machine

namespace Sys2Proof.Machine

/-- The resolver fails exactly on NoneAddressing, with the fault that records it (spec/40_addressing_modes.md R111). -/
theorem resolve_eq_error_iff {m : Mode} {s : State} {f : CoreFault} :
    resolve m s = .error f ↔ m = .noneAddressing ∧ f = .unsupportedAddressingMode .noneAddressing := by
  cases m
  case noneAddressing =>
    exact ⟨fun h => ⟨rfl, (Except.error.inj h).symm⟩, fun ⟨_, hf⟩ => congrArg Except.error hf.symm⟩
  all_goals exact ⟨nofun, nofun⟩

/-- Only the handlers of `LDA` and `STA` fail, and only where the resolver does (spec/42_execute_cycle.md R136). -/
theorem handle_eq_error_iff_resolve {h : Handler} {m : Mode} {s : State} {f : CoreFault} :
    handle h m s = .error f ↔ (h = .lda ∨ h = .sta) ∧ resolve m s = .error f := by
  cases h with
  | lda => simp only [handle]; cases resolve m s <;> simp
  | sta => simp only [handle]; cases resolve m s <;> simp
  | tax => simp [handle]
  | inx => simp [handle]
  | brk => simp [handle]

/-- When a handler fails, and with which fault (spec/60_exceptions.md R202). -/
theorem handle_eq_error_iff {h : Handler} {m : Mode} {s : State} {f : CoreFault} :
    handle h m s = .error f ↔
      (h = .lda ∨ h = .sta) ∧ m = .noneAddressing ∧ f = .unsupportedAddressingMode .noneAddressing := by
  rw [handle_eq_error_iff_resolve, resolve_eq_error_iff]

/-- The cycle of a byte whose handler fails takes that fault on the state of steps 1 and 2 (R205). -/
theorem cycle_of_handle_error {tab : Optab} {s : State} {row : OptabRow} {h : Handler} {f : CoreFault}
    (hrow : tab.lookup (s.read s.pc) = some row) (hh : handlerOf (s.read s.pc) = some h)
    (hf : handle h row.mode s.beginInstr = .error f) : cycle tab s = s.beginInstr.raiseFault f := by
  simp only [cycle, hrow, hh, hf]

/-- A step of a running core is the cycle (spec/42_execute_cycle.md R142). -/
theorem stepWith_of_fetching (tab : Optab) {s : State} (hr : s.runState = .fetching) :
    stepWith tab s = .next (cycle tab s) := by
  simp only [stepWith, hr]

/-- No instruction of the default table faults: it leaves the core ready to fetch, or halted. -/
theorem exec_runState_ne_faulted {i : Instr} {s t : State} (h : exec i s = .next t) : t.runState ≠ .faulted := by
  rcases exec_cases i s with ⟨v, _, hv⟩ | ⟨ea, _, _, hv⟩ | ⟨v, _, hv⟩ | ⟨_, hv⟩
  all_goals
    cases hv.symm.trans h
    exact nofun

/-- Under the default table a step that ends Faulted took the fault of an opcode byte without an entry
(spec/60_exceptions.md R201, R202). -/
theorem step_faulted {s t : State} (h : step s = .next t) (ht : t.runState = .faulted) :
    t.faultRecord = some (.unrecognizedOpcode (s.read s.pc)) := by
  rcases step_cases h with ⟨i, _, _, he⟩ | ⟨_, _, rfl⟩ | ⟨_, _, rfl⟩
  · exact absurd ht (exec_runState_ne_faulted he)
  · rfl
  · nomatch ht

/-- Settles O33: the handlers fail only through the resolver, the cycle takes that fault before anything is written, and
a step of the default machine takes no other fault than that of step 3. -/
theorem resolvingNoneAddressingIsFatal : Obligations.ResolvingNoneAddressingIsFatal := by
  refine ⟨fun s => rfl, fun h m s f => handle_eq_error_iff, fun tab s row h hr hrow hh hls hm => ?_, fun s t m h ht => ?_⟩
  · have hcycle := cycle_of_handle_error hrow hh (handle_eq_error_iff.2 ⟨hls, hm, rfl⟩)
    have hstep := (stepWith_of_fetching tab hr).trans (congrArg Host.Outcome.next hcycle)
    exact ⟨_, hstep, rfl, rfl, rfl, rfl, rfl, rfl, State.read_of_mem_eq rfl⟩
  · rw [step_faulted h ht]
    exact nofun

end Sys2Proof.Machine

namespace Sys2Proof

/-- An opcode byte with a row decodes where enough operand bytes follow it (spec/30_encoding.md R81, R83). -/
theorem decode_of_findRow {b0 : Byte} {rest : List Byte} {r : OpcodeRow} (hrow : findRow b0 = some r)
    (hlen : r.len ≤ rest.length + 1) :
    decode (b0 :: rest) = .ok (r.operands.assemble (rest.getD 0 0) (rest.getD 1 0), rest.drop (r.len - 1)) := by
  simp only [decode, hrow]
  rw [if_neg (Nat.not_lt.2 hlen)]

end Sys2Proof

namespace Sys2Proof.Machine

/-- The parts of a load's cycle together load the byte, whatever the length: the flags by the flag updater, `PC` by the
two advances (spec/43_load_store.md R160). -/
theorem loadedA_beginInstr_loadA_endInstr (s : State) (v : Byte) (len : Nat) :
    LoadedA s ((s.beginInstr.loadA v).endInstr len) v len :=
  ⟨rfl, flagsFrom_updateZN v s.p, pc_after_advances s (s.beginInstr.loadA v) len rfl rfl, rfl⟩

/-- The flag updater keeps every bit but Z and N (spec/41_flag_update.md R122). -/
theorem sixBitsKept_updateZN (r p : Byte) : SixBitsKept p (updateZN r p) := by
  intro k hz hn
  rw [getLsbD_updateZN, if_neg hn, if_neg hz]

/-- A step of a running core whose bytes at `PC` are an instruction is that instruction (spec/42_execute_cycle.md R142). -/
theorem step_of_fetchInstr {s : State} {i : Instr} (hr : s.runState = .fetching) (hi : s.fetchInstr = some i) :
    step s = exec i s := by
  simp only [step, hr, hi]

/-- The fetch of the opcode byte 0xA9 is `LDA Immediate` of the byte at `PC + 1` (spec/43_load_store.md R161). -/
theorem fetchInstr_of_read_A9 {s : State} (hop : s.read s.pc = 0xA9) :
    s.fetchInstr = some (.ldaImmediate (s.read (s.pc + 1))) := by
  rw [State.fetchInstr, hop]
  rfl

/-- What `LDA Immediate` answers has its operand loaded (R161). -/
theorem exec_ldaImmediate_loadedA (d8 : Byte) (s : State) :
    ∃ t, exec (.ldaImmediate d8) s = .next t ∧ LoadedA s t d8 2 :=
  ⟨_, rfl, loadedA_beginInstr_loadA_endInstr s d8 2⟩

/-- Settles O9: the decoder's row of 0xA9, then the instruction, which a step runs on the byte fetched at `PC + 1`. -/
theorem ldaImmediateLoadsItsOperand : Obligations.LdaImmediateLoadsItsOperand := by
  refine ⟨fun d8 rest => ?_, exec_ldaImmediate_loadedA, fun s hr hop => ?_⟩
  · exact decode_of_findRow (r := ⟨0xA9, .lda, .immediate, 2, .d8 .ldaImmediate⟩) rfl (by simp)
  · rw [step_of_fetchInstr hr (fetchInstr_of_read_A9 hop)]
    exact exec_ldaImmediate_loadedA _ s

/-- Every mode but NoneAddressing resolves to an address (spec/40_addressing_modes.md R102 to R111). -/
theorem exists_resolve_eq_ok {m : Mode} (hm : m ≠ .noneAddressing) (s : State) : ∃ ea, resolve m s = .ok ea := by
  cases h : resolve m s with
  | ok ea => exact ⟨ea, rfl⟩
  | error f => exact absurd (resolve_eq_error_iff.1 h).1 hm

/-- The cycle of a byte whose handler succeeds is the handler, then step 5 unless it halted (spec/42_execute_cycle.md
R137, R138). -/
theorem cycle_of_handle_ok {tab : Optab} {s t : State} {row : OptabRow} {h : Handler}
    (hrow : tab.lookup (s.read s.pc) = some row) (hh : handlerOf (s.read s.pc) = some h)
    (ht : handle h row.mode s.beginInstr = .ok t) : cycle tab s = if h = .brk then t else t.endInstr row.len := by
  simp only [cycle, hrow, hh, ht]

/-- The handler of `LDA` loads the byte at the resolved address (spec/43_load_store.md R160). -/
theorem handle_lda_of_resolve {m : Mode} {s : State} {ea : Word} (hea : resolve m s = .ok ea) :
    handle .lda m s = .ok (s.loadA (s.read ea)) := by
  simp only [handle, hea]

/-- Settles O30: an operand mode resolves, so the cycle is a load from that address; NoneAddressing is the fault that
`resolvingNoneAddressingIsFatal` describes. -/
theorem ldaHandlerUnderAnyTable : Obligations.LdaHandlerUnderAnyTable := by
  refine fun tab s row hr hrow hh => ⟨fun hm => ?_, fun hm => ?_⟩
  · obtain ⟨ea, hea⟩ := exists_resolve_eq_ok hm s.beginInstr
    have hcycle : cycle tab s = (s.beginInstr.loadA (s.read ea)).endInstr row.len :=
      cycle_of_handle_ok hrow hh (handle_lda_of_resolve hea)
    have hstep := (stepWith_of_fetching tab hr).trans (congrArg Host.Outcome.next hcycle)
    exact ⟨ea, _, hea, hstep, loadedA_beginInstr_loadA_endInstr s (s.read ea) row.len, rfl, rfl,
      sixBitsKept_updateZN (s.read ea) s.p, State.read_of_mem_eq rfl⟩
  · obtain ⟨_, _, hfatal, _⟩ := resolvingNoneAddressingIsFatal
    obtain ⟨t, hstep, hrun, hrec, ha, _, _, hp, hmem⟩ := hfatal tab s row .lda hr hrow hh (.inl rfl) hm
    exact ⟨t, hstep, hrun, hrec, ha, hp, hmem⟩

end Sys2Proof.Machine

namespace Sys2Proof

/-- A one-byte row takes no operand byte, so its opcode byte decodes whatever follows, and leaves all of it
(spec/30_encoding.md R81). -/
theorem decode_of_oneByte_row {b0 : Byte} {r : OpcodeRow} (hrow : findRow b0 = some r) (hlen : r.len = 1)
    (rest : List Byte) : decode (b0 :: rest) = .ok (r.operands.assemble (rest.getD 0 0) (rest.getD 1 0), rest) := by
  rw [decode_of_findRow hrow (hlen ▸ Nat.le_add_left 1 rest.length), hlen, Nat.sub_self, List.drop_zero]

end Sys2Proof

namespace Sys2Proof.Machine

/-- Settles O24: the decoder's row of 0xAA, then the state that `execTax_eq` says `TAX` answers, read field by field. -/
theorem taxCopiesAToX : Obligations.TaxCopiesAToX := by
  refine ⟨fun rest => ?_, fun s => ?_⟩
  · exact decode_of_oneByte_row (r := ⟨0xAA, .tax, .noneAddressing, 1, .none .tax⟩) rfl rfl rest
  · exact ⟨_, execTax_eq s, rfl, rfl, flagsFrom_updateZN s.a s.p, sixBitsKept_updateZN s.a s.p,
      State.read_of_mem_eq rfl, rfl, rfl⟩

/-- The successor of a byte wraps to zero exactly at 0xFF (spec/44_register_ops.md R186). -/
theorem byte_add_one_eq_zero_iff {b : Byte} : b + 1 = 0x00 ↔ b = 0xFF :=
  add_eq_zero_iff_eq_neg

/-- Settles O25: the decoder's row of 0xE8, then the state that `execInx_eq` says `INX` answers; the flag updater sets Z
exactly when the successor of the old `X` is zero, which is the wrap at 0xFF. -/
theorem inxIncrementsX : Obligations.InxIncrementsX := by
  refine ⟨fun rest => ?_, fun s => ?_⟩
  · exact decode_of_oneByte_row (r := ⟨0xE8, .inx, .noneAddressing, 1, .none .inx⟩) rfl rfl rest
  · obtain ⟨hz, hn⟩ := flagsFrom_updateZN (s.x + 1) s.p
    exact ⟨_, execInx_eq s, BitVec.toNat_add s.x 1, ⟨hz, hn⟩, hz.trans byte_add_one_eq_zero_iff,
      sixBitsKept_updateZN (s.x + 1) s.p, rfl, rfl, State.read_of_mem_eq rfl, rfl, rfl⟩

end Sys2Proof.Machine

namespace Sys2Proof.Machine

/-- `reset()` answers exactly while the core is not running, and then what R230 says (spec/70_reset_and_hazards.md R231). -/
theorem hostReset_eq_next_iff {s t : State} : hostReset s = .next t ↔ s.running = false ∧ t = s.doReset := by
  unfold hostReset
  cases s.running <;> simp [eq_comm]

/-- Two resets in a row are one: the vector is read from the memory the first reset kept (R231). -/
theorem State.doReset_doReset (s : State) : s.doReset.doReset = s.doReset := by
  have hvec : s.doReset.doReset.pc = s.doReset.pc := State.readWord_of_mem_eq s.doReset_mem Config.resetVec
  exact State.ext rfl rfl rfl rfl hvec rfl rfl rfl rfl rfl

/-- An instruction leaves the core ready to fetch, or halted (spec/42_execute_cycle.md R140). -/
theorem exec_runState {i : Instr} {s t : State} (h : exec i s = .next t) :
    t.runState = .fetching ∨ t.runState = .halted := by
  rcases exec_cases i s with ⟨v, _, hv⟩ | ⟨ea, _, _, hv⟩ | ⟨v, _, hv⟩ | ⟨_, hv⟩ <;> cases hv.symm.trans h
  · exact .inl rfl
  · exact .inl rfl
  · exact .inl rfl
  · exact .inr rfl

/-- No step leads to Idle: an instruction goes on or halts, a fault is Faulted, and `run()` is Fetching (R231). -/
theorem step_runState_ne_idle {s t : State} (h : step s = .next t) : t.runState ≠ .idle := by
  rcases step_cases h with ⟨i, _, _, he⟩ | ⟨_, _, rfl⟩ | ⟨_, _, rfl⟩
  · rcases exec_runState he with hr | hr <;> simp [hr]
  · exact nofun
  · exact nofun

/-- On memory that reads 0x00 everywhere every word reads 0x0000 (spec/20_memory.md R54). -/
theorem State.readWord_of_blank {s : State} (h : ∀ b : Word, s.read b = 0x00) (addr : Word) :
    s.readWord addr = 0x0000 := by
  rw [State.readWord, h, h]
  rfl

/-- The fetch of the opcode byte 0x00 is `BRK` (spec/30_encoding.md R86). -/
theorem fetchInstr_of_read_00 {s : State} (hop : s.read s.pc = 0x00) : s.fetchInstr = some .brk := by
  rw [State.fetchInstr, hop]
  rfl

/-- A step at the opcode byte 0x00 halts with `PC` one past it (spec/45_halt.md R195). -/
theorem step_of_read_00 {s : State} (hr : s.runState = .fetching) (hop : s.read s.pc = 0x00) :
    step s = .next { s with pc := s.pc + 1, pcPre := s.pc + 1, runState := .halted } :=
  (step_of_fetchInstr hr (fetchInstr_of_read_00 hop)).trans (execBrk_eq s)

/-- Settles O55: `reset()` answers `doReset`, which is idempotent and leaves a core that is not running; the run on
all-zero memory is the entry of `run()` and one `BRK`. -/
theorem resetNeverFailsAndRepeats : Obligations.ResetNeverFailsAndRepeats := by
  refine ⟨fun s hs => ?_, fun s hs t h => ?_, fun s t h => step_runState_ne_idle h, fun s t h hblank => ?_⟩
  · exact ⟨s.doReset, hostReset_eq_next_iff.2 ⟨s.running_eq_false_iff.2 hs, rfl⟩,
      hostReset_eq_next_iff.2 ⟨rfl, s.doReset_doReset.symm⟩⟩
  · obtain ⟨hstopped, _⟩ := hostReset_eq_next_iff.1 h
    exact Bool.false_ne_true (hstopped.symm.trans (s.running_eq_true_iff.2 hs))
  · obtain ⟨_, rfl⟩ := hostReset_eq_next_iff.1 h
    have hpc : s.doReset.pc = 0x0000 := State.readWord_of_blank hblank Config.resetVec
    refine ⟨hpc, { s.doReset with runState := .fetching }, _, rfl, step_of_read_00 rfl (hblank _), rfl, ?_⟩
    show s.doReset.pc + 1 = 0x0001
    rw [hpc]
    rfl

end Sys2Proof.Machine

/-! The default table: its rows against the encoder and the decoder, and which bytes have a row. -/

namespace Sys2Proof

/-- The encoder writes every instruction that a row of the table assembles, with the row's opcode byte and length
(spec/30_encoding.md R81). -/
def OpcodeRow.EncodedBy (r : OpcodeRow) : Prop :=
  match r.operands with
  | .none i => r.len = 1 ∧ encode i = [r.opcode]
  | .d8 build => r.len = 2 ∧ ∀ d8, encode (build d8) = encodeD8 r.opcode d8
  | .a16 build => r.len = 3 ∧ ∀ a16, encode (build a16) = encodeA16 r.opcode a16

/-- The encoder agrees with each of the 18 rows (R86). -/
theorem encodedBy_of_mem : ∀ r ∈ opcodeTable, r.EncodedBy := by
  simp [opcodeTable, implicitRows, ldaRows, staRows, OpcodeRow.EncodedBy, encode]

/-- A row of format F1 decodes whatever follows the opcode byte (R81, R83). -/
theorem decode_of_none_row {b0 : Byte} {h : Handler} {m : Mode} {i : Instr}
    (hrow : findRow b0 = some ⟨b0, h, m, 1, .none i⟩) (rest : List Byte) : decode (b0 :: rest) = .ok (i, rest) :=
  decode_of_oneByte_row hrow rfl rest

/-- A row of format F2 decodes with the byte after the opcode as its operand (R81, R83). -/
theorem decode_of_d8_row {b0 : Byte} {h : Handler} {m : Mode} {build : Byte → Instr}
    (hrow : findRow b0 = some ⟨b0, h, m, 2, .d8 build⟩) (d8 : Byte) (rest : List Byte) :
    decode (b0 :: d8 :: rest) = .ok (build d8, rest) :=
  decode_of_findRow hrow (by simp)

/-- A row of format F3 decodes with the two bytes after the opcode as its operand, low byte first (R81, R83). -/
theorem decode_of_a16_row {b0 : Byte} {h : Handler} {m : Mode} {build : Word → Instr}
    (hrow : findRow b0 = some ⟨b0, h, m, 3, .a16 build⟩) (lo hi : Byte) (rest : List Byte) :
    decode (b0 :: lo :: hi :: rest) = .ok (build (word hi lo), rest) :=
  decode_of_findRow hrow (by simp)

/-- A row of format F3 decodes an encoded operand word to that word. -/
theorem decode_encodeA16 {b0 : Byte} {h : Handler} {m : Mode} {build : Word → Instr}
    (hrow : findRow b0 = some ⟨b0, h, m, 3, .a16 build⟩) (a16 : Word) (rest : List Byte) :
    decode (encodeA16 b0 a16 ++ rest) = .ok (build a16, rest) := by
  rw [← word_hiByte_loByte a16]
  simpa [encodeA16] using decode_of_a16_row hrow (loByte a16) (hiByte a16) rest

/-- Settles O1: by the format of each instruction's row. -/
theorem decodeOfEncodeGivesTheInstruction : Obligations.DecodeOfEncodeGivesTheInstruction := by
  intro i rest
  cases i with
  | brk | tax | inx => exact decode_of_none_row rfl rest
  | ldaImmediate d8 | ldaZeroPage d8 | ldaZeroPageX d8 | ldaIndirectX d8 | ldaIndirectY d8
  | staZeroPage d8 | staZeroPageX d8 | staIndirectX d8 | staIndirectY d8 => exact decode_of_d8_row rfl d8 rest
  | ldaAbsolute a16 | ldaAbsoluteX a16 | ldaAbsoluteY a16
  | staAbsolute a16 | staAbsoluteX a16 | staAbsoluteY a16 => exact decode_encodeA16 rfl a16 rest

/-- What a byte string that decodes is: an opcode byte with a row, and at least the operand bytes of that row (R83). -/
theorem decode_eq_ok {bs rest : List Byte} {i : Instr} (h : decode bs = .ok (i, rest)) :
    ∃ b0 tail r, bs = b0 :: tail ∧ findRow b0 = some r ∧ r.len ≤ tail.length + 1 ∧
      i = r.operands.assemble (tail.getD 0 0) (tail.getD 1 0) ∧ rest = tail.drop (r.len - 1) := by
  cases bs with
  | nil => nomatch h
  | cons b0 tail =>
    simp only [decode] at h
    split at h
    · nomatch h
    · rename_i r hrow
      split at h
      · nomatch h
      · rename_i hlen
        cases h
        exact ⟨b0, tail, r, rfl, hrow, Nat.not_lt.1 hlen, rfl, rfl⟩

/-- The encoder gives back the bytes that a row of the table was decoded from (R82, R83). -/
theorem OpcodeRow.EncodedBy.encode_assemble {r : OpcodeRow} (hr : r.EncodedBy) {tail : List Byte}
    (hlen : r.len ≤ tail.length + 1) :
    encode (r.operands.assemble (tail.getD 0 0) (tail.getD 1 0)) ++ tail.drop (r.len - 1) = r.opcode :: tail := by
  obtain ⟨op, _, _, len, operands⟩ := r
  cases operands with
  | none i =>
    obtain ⟨rfl, henc⟩ := hr
    simp [Operands.assemble, henc]
  | d8 build =>
    obtain ⟨rfl, henc⟩ := hr
    obtain _ | ⟨b1, tail⟩ := tail
    · simp at hlen
    · simp [Operands.assemble, henc, encodeD8]
  | a16 build =>
    obtain ⟨rfl, henc⟩ := hr
    obtain _ | ⟨b1, _ | ⟨b2, tail⟩⟩ := tail
    · simp at hlen
    · simp at hlen
    · simp [Operands.assemble, henc, encodeA16]

/-- Settles O2: the row found is a row of the table, and the encoder agrees with every row. -/
theorem encodeOfDecodedGivesTheBytes : Obligations.EncodeOfDecodedGivesTheBytes := by
  intro bs rest i h
  obtain ⟨b0, tail, r, rfl, hrow, hlen, rfl, rfl⟩ := decode_eq_ok h
  obtain ⟨hmem, rfl⟩ := findRow_some hrow
  exact ((encodedBy_of_mem r hmem).encode_assemble hlen).symm

/-- Settles O3: each word is an encoding, so it decodes by the round trip; 0xEA has no row. -/
theorem wordsOfTheSpecDecode : Obligations.WordsOfTheSpecDecode :=
  have roundTrip := decodeOfEncodeGivesTheInstruction
  ⟨roundTrip .brk [], roundTrip (.ldaImmediate 0x05) [0x00], roundTrip (.ldaAbsoluteX 0x02FE) [],
    roundTrip (.staIndirectY 0x86) [], roundTrip (.staAbsolute 0x8007) [], roundTrip .tax [0xE8],
    roundTrip .inx [], rfl⟩

/-- The 18 opcode bytes of the default table in rising order (R86). -/
def listedBytes : List Byte :=
  [0x00, 0x81, 0x85, 0x8D, 0x91, 0x95, 0x99, 0x9D, 0xA1, 0xA5, 0xA9, 0xAA, 0xAD, 0xB1, 0xB5, 0xB9, 0xBD, 0xE8]

/-- The listed bytes are the keys of the table (R86). -/
theorem opcodes_perm_listedBytes : (opcodeTable.map OpcodeRow.opcode).Perm listedBytes := by decide

/-- A byte has no row exactly where it is not listed (R88). -/
theorem findRow_eq_none_iff {b : Byte} : findRow b = none ↔ b ∉ listedBytes := by
  rw [← opcodes_perm_listedBytes.mem_iff]
  simp [findRow]

/-- Settles O4: the listed rows are looked up one by one; another byte has no row, and both the default `OPTAB` and the
handler wiring are read off the rows. -/
theorem defaultTableIsTheEighteenRows : Obligations.DefaultTableIsTheEighteenRows := by
  refine ⟨by decide, fun b hb => ?_, by decide⟩
  have hrow : findRow b = none := findRow_eq_none_iff.2 hb
  exact ⟨by rw [lookup_default, hrow]; rfl, by rw [handlerOf, hrow]; rfl⟩

end Sys2Proof

/-! The step that decodes first is the cycle of the spec, and what every cycle keeps. -/

namespace Sys2Proof.Machine

/-- The instruction that a row assembles from the operand bytes at `PC` does what the row's handler does in the row's mode,
then the second advance unless it halts (spec/42_execute_cycle.md R131). -/
def ExecIsHandle (s : State) (r : OpcodeRow) : Prop :=
  ∃ t, handle r.handler r.mode s.beginInstr = .ok t ∧
    exec (r.operands.assemble (s.read (s.pc + 1)) (s.read (s.pc + 1 + 1))) s =
      .next (if r.handler = .brk then t else t.endInstr r.len)

/-- Each of the 18 rows does what its handler does: the operand decoded is the one the resolver reads (R131, log entry 10). -/
theorem execIsHandle_of_mem (s : State) : ∀ r ∈ opcodeTable, ExecIsHandle s r := by
  intro r hr
  fin_cases hr <;> exact ⟨_, rfl, rfl⟩

/-- The handler of a byte with a row (spec/30_encoding.md R89). -/
theorem handlerOf_of_findRow {b : Byte} {r : OpcodeRow} (hrow : findRow b = some r) : handlerOf b = some r.handler := by
  rw [handlerOf, hrow]
  rfl

/-- The default `OPTAB` at a byte with a row (R85, R86). -/
theorem lookup_of_findRow {b : Byte} {r : OpcodeRow} (hrow : findRow b = some r) :
    Optab.lookup defaultOptab b = some r.toOptabRow := by
  rw [lookup_default, hrow]
  rfl

/-- The fetch at a byte with a row (R84). -/
theorem fetchInstr_of_findRow {s : State} {r : OpcodeRow} (hrow : findRow (s.read s.pc) = some r) :
    s.fetchInstr = some (r.operands.assemble (s.read (s.pc + 1)) (s.read (s.pc + 1 + 1))) := by
  have hpc : s.pc + 1 + 1 = s.pc + 2 := BitVec.add_assoc s.pc 1 1
  rw [State.fetchInstr, decodeBytes, hrow, hpc]
  rfl

/-- Settles O5: the bytes that decode have a row, and the fetch assembles the same instruction from that row. -/
theorem stepRunsTheDecodedInstruction : Obligations.StepRunsTheDecodedInstruction := by
  intro s i rest hr h
  obtain ⟨b0, tail, r, hbytes, hrow, _, rfl, _⟩ := decode_eq_ok h
  cases hbytes
  have hpc : s.pc + 1 + 1 = s.pc + 2 := BitVec.add_assoc s.pc 1 1
  exact step_of_fetchInstr hr (hpc ▸ fetchInstr_of_findRow hrow)

/-- The cycle of a byte without an entry is the fault of step 3 (spec/42_execute_cycle.md R134). -/
theorem cycle_of_lookup_none {tab : Optab} {s : State} (h : tab.lookup (s.read s.pc) = none) :
    cycle tab s = s.takeUnrecognized := by
  simp only [cycle, h]

/-- The cycle of a byte with an entry and no handler is the fault of step 4 (R135). -/
theorem cycle_of_handlerOf_none {tab : Optab} {s : State} {row : OptabRow}
    (hrow : tab.lookup (s.read s.pc) = some row) (hh : handlerOf (s.read s.pc) = none) :
    cycle tab s = s.beginInstr.raiseFault (.notYetImplemented (s.read s.pc)) := by
  simp only [cycle, hrow, hh]

/-- A running core steps by the cycle of the default table, whether or not the byte at `PC` has a row. -/
theorem step_of_fetching {s : State} (hr : s.runState = .fetching) : step s = .next (cycle defaultOptab s) := by
  cases hrow : findRow (s.read s.pc) with
  | none =>
    have hlookup : Optab.lookup defaultOptab (s.read s.pc) = none := by rw [lookup_default, hrow]; rfl
    simp only [step, hr, (fetchInstr_eq_none s).2 hrow, cycle_of_lookup_none hlookup]
  | some r =>
    obtain ⟨t, ht, hexec⟩ := execIsHandle_of_mem s r (findRow_some hrow).1
    rw [step_of_fetchInstr hr (fetchInstr_of_findRow hrow), hexec,
      cycle_of_handle_ok (lookup_of_findRow hrow) (handlerOf_of_findRow hrow) ht]
    rfl

/-- Settles O6: where the core is not running, both sides are the same; where it is, by the row of the byte at `PC`. -/
theorem stepIsTheCycleOfTheSpec : Obligations.StepIsTheCycleOfTheSpec := by
  intro s
  cases hr : s.runState with
  | fetching => rw [step_of_fetching hr, stepWith_of_fetching _ hr]
  | idle | dispatching | halted | faulted => simp only [step, stepWith, hr]

/-- Settles O7: a cycle that does not reach step 5 took a fault or halted, both on the state of steps 1 and 2. -/
theorem latchAndSecondAdvance : Obligations.LatchAndSecondAdvance := by
  refine ⟨fun s => ⟨rfl, rfl⟩, fun s len => ⟨rfl, fun h => if_pos h, fun h => if_neg h⟩, fun tab s hne => ?_⟩
  rcases cycle_cases tab s with ⟨f, h⟩ | ⟨v, len, h⟩ | ⟨ea, len, h⟩ | ⟨v, len, h⟩ | h
  · rw [h]; rfl
  · exact absurd (h ▸ rfl) hne
  · exact absurd (h ▸ rfl) hne
  · exact absurd (h ▸ rfl) hne
  · rw [h]; rfl

/-- `BRK` is the only instruction with its handler (spec/30_encoding.md R89). -/
theorem handler_eq_brk_iff {i : Instr} : i.handler = .brk ↔ i = .brk := by
  cases i <;> simp [Instr.handler]

/-- Settles O8: by what an instruction of each handler answers. -/
theorem everyInstructionCompletesPastItself : Obligations.EveryInstructionCompletesPastItself := by
  intro i s
  simp only [← handler_eq_brk_iff]
  rcases exec_cases i s with ⟨v, hi, h⟩ | ⟨ea, hi, _, h⟩ | ⟨v, hi | hi, h⟩ | ⟨hi, h⟩ <;>
    exact ⟨_, h, rfl, by simp [hi]⟩

/-! What a cycle keeps, under any table -/

/-- No cycle changes `Y` (spec/10_state.md R23). -/
theorem cycle_y (tab : Optab) (s : State) : (cycle tab s).y = s.y := by
  rcases cycle_cases tab s with ⟨f, h⟩ | ⟨v, len, h⟩ | ⟨ea, len, h⟩ | ⟨v, len, h⟩ | h <;> simp [h]

/-- No cycle changes whether the block has been reset (R130). -/
theorem cycle_wasReset (tab : Optab) (s : State) : (cycle tab s).wasReset = s.wasReset := by
  rcases cycle_cases tab s with ⟨f, h⟩ | ⟨v, len, h⟩ | ⟨ea, len, h⟩ | ⟨v, len, h⟩ | h <;> simp [h]

/-- A cycle changes the status byte only by the flag updater (R28, R29). -/
theorem cycle_p (tab : Optab) (s : State) :
    (cycle tab s).p = s.p ∨ ∃ v, (cycle tab s).p = updateZN v s.p := by
  rcases cycle_cases tab s with ⟨f, h⟩ | ⟨v, len, h⟩ | ⟨ea, len, h⟩ | ⟨v, len, h⟩ | h
  · exact .inl (h ▸ rfl)
  · exact .inr ⟨v, h ▸ rfl⟩
  · exact .inl (h ▸ rfl)
  · exact .inr ⟨v, h ▸ rfl⟩
  · exact .inl (h ▸ rfl)

/-- A cycle ends ready to fetch or halted with the fault record as it was, or Faulted with a record (R33, R34). -/
theorem cycle_runState (tab : Optab) (s : State) :
    (((cycle tab s).runState = .fetching ∨ (cycle tab s).runState = .halted) ∧
      (cycle tab s).faultRecord = s.faultRecord) ∨
    ((cycle tab s).runState = .faulted ∧ ∃ f, (cycle tab s).faultRecord = some f) := by
  rcases cycle_cases tab s with ⟨f, h⟩ | ⟨v, len, h⟩ | ⟨ea, len, h⟩ | ⟨v, len, h⟩ | h <;> simp [h]

/-- A cycle keeps memory in its canonical form. -/
theorem cycle_wf (tab : Optab) {s : State} (hm : s.mem.wf) : (cycle tab s).mem.wf := by
  rcases cycle_cases tab s with ⟨f, h⟩ | ⟨v, len, h⟩ | ⟨ea, len, h⟩ | ⟨v, len, h⟩ | h
  · exact h ▸ hm
  · exact h ▸ hm
  · rw [h]; exact State.write_wf s ea s.a hm
  · exact h ▸ hm
  · exact h ▸ hm

/-! The invariant of the machine -/

/-- The memory of a state of the invariant is canonical. -/
theorem State.Inv.mem_wf {s : State} (hs : s.Inv) : s.mem.wf := by
  obtain ⟨hm, _⟩ := hs
  exact hm

/-- Outside Faulted the fault record of a state of the invariant is empty (R34). -/
theorem State.Inv.faultRecord_eq_none {s : State} (hs : s.Inv) (hr : s.runState ≠ .faulted) : s.faultRecord = none := by
  obtain ⟨_, _, hrec, _⟩ := hs
  rw [← Option.not_isSome_iff_eq_none, hrec]
  exact hr

/-- A cycle of a running core keeps the invariant. -/
theorem cycle_inv (tab : Optab) {s : State} (hs : s.Inv) (hr : s.runState = .fetching) : (cycle tab s).Inv := by
  have hrec : s.faultRecord = none := hs.faultRecord_eq_none (by simp [hr])
  obtain ⟨hm, _, _, hreset⟩ := hs
  have hwas : (cycle tab s).wasReset = true := (cycle_wasReset tab s).trans (hreset (by simp [hr]))
  refine ⟨cycle_wf tab hm, ?_, ?_, fun _ => hwas⟩ <;>
    rcases cycle_runState tab s with ⟨h | h, hf⟩ | ⟨h, f, hf⟩ <;> simp [h, hf, hrec]

/-- The entry of `run()` keeps the invariant where the block has been reset (R130). -/
theorem run_entry_inv {s : State} (hs : s.Inv) (hr : s.runState = .idle) (hw : s.wasReset = true) :
    State.Inv { s with runState := .fetching } := by
  have hrec : s.faultRecord = none := hs.faultRecord_eq_none (by simp [hr])
  exact ⟨hs.mem_wf, nofun, by simp [hrec], fun _ => hw⟩

/-- A step under any table keeps the invariant. -/
theorem stepWith_inv {tab : Optab} {s t : State} (hs : s.Inv) (h : stepWith tab s = .next t) : t.Inv := by
  rcases stepWith_cases h with ⟨hr, rfl⟩ | ⟨hr, hw, rfl⟩
  · exact cycle_inv tab hs hr
  · exact run_entry_inv hs hr hw

/-- Settles O44: the step is the step under the default table. -/
theorem stepKeepsTheInvariant : Obligations.StepKeepsTheInvariant :=
  fun s _ hs h => stepWith_inv hs ((stepIsTheCycleOfTheSpec s).symm.trans h)

/-- Settles O45: both states are Idle with an empty memory and no record. -/
theorem resetAndCreationMeetTheInvariant : Obligations.ResetAndCreationMeetTheInvariant :=
  have hcreated : State.created.mem.wf := reset_mem_wf
  ⟨⟨reset_mem_wf, by decide, by decide, by decide⟩, ⟨hcreated, nofun, ⟨nofun, nofun⟩, fun h => absurd rfl h⟩⟩

/-- Copying an image changes memory alone (spec/70_reset_and_hazards.md R236). -/
theorem State.copyIn_eq (s : State) (addr : Word) (image : List Byte) :
    s.copyIn addr image = { s with mem := (s.copyIn addr image).mem } := by
  induction image generalizing s addr with
  | nil => rfl
  | cons b bs ih => exact ih (s.write addr b) (addr + 1)

/-- `load` changes memory alone (R236). -/
theorem State.doLoad_eq (s : State) (image : List Byte) :
    s.doLoad image = { s with mem := (s.doLoad image).mem } := by
  unfold State.doLoad
  rw [State.copyIn_eq]
  rfl

/-- Another memory in canonical form keeps the invariant. -/
theorem State.Inv.with_mem {s : State} (hs : s.Inv) {m : Memory} (hm : m.wf) : State.Inv { s with mem := m } :=
  ⟨hm, hs.2⟩

/-- A reset gives the invariant where memory is canonical (R230). -/
theorem State.doReset_inv {s : State} (hm : s.mem.wf) : s.doReset.Inv :=
  ⟨hm, nofun, by simp, fun _ => rfl⟩

/-- Settles O46: a write and a load change memory alone and keep its form; a reset clears the record; `run` enters after a
reset only. -/
theorem hostMovesKeepTheInvariant : Obligations.HostMovesKeepTheInvariant := by
  intro m s t hs h
  obtain ⟨_, ⟨addr, b, _, rfl⟩ | ⟨image, _, _, rfl⟩ | ⟨_, rfl⟩ | ⟨_, hr, hw, rfl⟩⟩ := hostMove_cases h
  · exact hs.with_mem (State.write_wf s addr b hs.mem_wf)
  · rw [State.doLoad_eq]
    exact hs.with_mem (State.doLoad_wf s image hs.mem_wf)
  · exact State.doReset_inv hs.mem_wf
  · exact run_entry_inv hs hr hw

/-! What every block has once it has been reset -/

/-- Settles O47: the step is a cycle of the default table, or the entry of `run()`. -/
theorem stepKeepsYAndTheSixBits : Obligations.StepKeepsYAndTheSixBits := by
  intro s t h
  rcases stepWith_cases ((stepIsTheCycleOfTheSpec s).symm.trans h) with ⟨_, rfl⟩ | ⟨_, _, rfl⟩
  · refine ⟨cycle_y defaultOptab s, ?_⟩
    rcases cycle_p defaultOptab s with hp | ⟨v, hp⟩ <;> rw [hp]
    · exact fun _ _ _ => rfl
    · exact sixBitsKept_updateZN v s.p
  · exact ⟨rfl, fun _ _ _ => rfl⟩

/-- Where no bit but Z and N is set, the flag updater leaves one of the three values: Z and N are never both set
(spec/10_state.md R30; positions: D2, log entry 2). -/
theorem updateZN_three_values (r : Byte) {p : Byte} (hp : p = 0x00 ∨ p = 0x02 ∨ p = 0x80) :
    updateZN r p = 0x00 ∨ updateZN r p = 0x02 ∨ updateZN r p = 0x80 := by
  by_cases hr : r = 0x00
  · subst hr
    rcases hp with rfl | rfl | rfl <;> decide
  · have hz : (r == 0x00) = false := beq_false_of_ne hr
    unfold updateZN
    rw [hz]
    cases r.getLsbD 7 <;> rcases hp with rfl | rfl | rfl <;> decide

/-- A state with the same reset bit, `Y` and status byte has what a reset block has. -/
theorem State.ResetInv.of_eq {s t : State} (hs : s.ResetInv) (hw : t.wasReset = s.wasReset) (hy : t.y = s.y)
    (hp : t.p = s.p) : t.ResetInv := by
  rw [State.ResetInv, hw, hy, hp]
  exact hs

/-- A cycle under any table keeps what a reset block has. -/
theorem cycle_resetInv (tab : Optab) {s : State} (hs : s.ResetInv) : (cycle tab s).ResetInv := by
  rcases cycle_p tab s with hp | ⟨v, hp⟩
  · exact hs.of_eq (cycle_wasReset tab s) (cycle_y tab s) hp
  · intro hw
    obtain ⟨hy, hthree⟩ := hs ((cycle_wasReset tab s).symm.trans hw)
    exact ⟨(cycle_y tab s).trans hy, hp ▸ updateZN_three_values v hthree⟩

/-- A step under any table keeps what a reset block has. -/
theorem stepWith_resetInv {tab : Optab} {s t : State} (hs : s.ResetInv) (h : stepWith tab s = .next t) :
    t.ResetInv := by
  rcases stepWith_cases h with ⟨_, rfl⟩ | ⟨_, _, rfl⟩
  · exact cycle_resetInv tab hs
  · exact hs.of_eq rfl rfl rfl

/-- A host move keeps what a reset block has. -/
theorem hostMove_resetInv {m : HostMove} {s t : State} (hs : s.ResetInv) (h : hostMove m s = .next t) :
    t.ResetInv := by
  obtain ⟨_, ⟨addr, b, _, rfl⟩ | ⟨image, _, _, rfl⟩ | ⟨_, rfl⟩ | ⟨_, _, _, rfl⟩⟩ := hostMove_cases h
  · exact hs.of_eq rfl rfl rfl
  · rw [State.doLoad_eq]
    exact hs.of_eq rfl rfl rfl
  · exact fun _ => ⟨rfl, .inl rfl⟩
  · exact hs.of_eq rfl rfl rfl

/-- A freshly created block has not been reset, so nothing is asked of its registers. -/
theorem created_resetInv : State.created.ResetInv := nofun

/-- Settles O60: every cycle keeps `Y` and changes `P` only by the flag updater, which stays within the three values. -/
theorem stepKeepsYZeroAndTheThreeValuesOfP : Obligations.StepKeepsYZeroAndTheThreeValuesOfP :=
  ⟨fun s _ hs h => stepWith_resetInv hs ((stepIsTheCycleOfTheSpec s).symm.trans h),
    fun _ _ _ hs h => stepWith_resetInv hs h, fun _ _ _ hs h => hostMove_resetInv hs h,
    fun _ => ⟨rfl, .inl rfl⟩, created_resetInv⟩

/-- Settles O48: both invariants hold at creation and every step and host move keeps them. -/
theorem afterAResetYIsZeroAndPHasThreeValues : Obligations.AfterAResetYIsZeroAndPHasThreeValues := by
  obtain ⟨_, hcreated⟩ := resetAndCreationMeetTheInvariant
  exact Reachable.invariant (fun s => s.Inv ∧ s.ResetInv) ⟨hcreated, created_resetInv⟩
    (fun _ _ _ hs h => ⟨stepWith_inv hs.1 h, stepWith_resetInv hs.2 h⟩)
    (fun m s t hs h => ⟨hostMovesKeepTheInvariant m s t hs.1 h, hostMove_resetInv hs.2 h⟩)

end Sys2Proof.Machine

/-! The rows of `LDA` and `STA`, what the instructions leave unchanged, and memory. -/

namespace Sys2Proof.Machine

/-- A load's cycle loads the byte at its address (spec/43_load_store.md R160). -/
theorem loadCycle_loadedA (len : Nat) (ea : State → Word) (s : State) :
    ∃ t, loadCycle len ea s = .next t ∧ LoadedA s t (s.read (ea s.beginInstr)) len :=
  ⟨_, rfl, loadedA_beginInstr_loadA_endInstr s _ len⟩

/-- The parts of a store's cycle together store `A`, whatever the length (R170). -/
theorem storedA_beginInstr_storeA_endInstr (s : State) (ea : Word) (len : Nat) :
    StoredA s ((s.beginInstr.storeA ea).endInstr len) ea len := by
  have hread := State.read_of_mem_write (s := s) (t := (s.beginInstr.storeA ea).endInstr len) rfl
  refine ⟨?_, fun b hb => ?_, pc_after_advances s (s.beginInstr.storeA ea) len rfl rfl, rfl⟩
  · rw [hread, if_pos rfl]; rfl
  · rw [hread, if_neg hb]

/-- A store's cycle stores `A` at its address (R170). -/
theorem storeCycle_storedA (len : Nat) (ea : State → Word) (s : State) :
    ∃ t, storeCycle len ea s = .next t ∧ StoredA s t (ea s.beginInstr) len :=
  ⟨_, rfl, storedA_beginInstr_storeA_endInstr s _ len⟩

/-- Settles O10: the row of 0xA5 and a load's cycle. -/
theorem ldaZeroPageLoads : Obligations.LdaZeroPageLoads :=
  ⟨decode_of_d8_row rfl, fun d8 => loadCycle_loadedA 2 (eaZeroPage d8)⟩

/-- Settles O11: the row of 0xB5 and a load's cycle. -/
theorem ldaZeroPageXLoads : Obligations.LdaZeroPageXLoads :=
  ⟨decode_of_d8_row rfl, fun d8 => loadCycle_loadedA 2 (eaZeroPageX d8)⟩

/-- Settles O12: the row of 0xAD and a load's cycle. -/
theorem ldaAbsoluteLoads : Obligations.LdaAbsoluteLoads :=
  ⟨decode_of_a16_row rfl, fun a16 => loadCycle_loadedA 3 (eaAbsolute a16)⟩

/-- Settles O13: the row of 0xBD and a load's cycle. -/
theorem ldaAbsoluteXLoads : Obligations.LdaAbsoluteXLoads :=
  ⟨decode_of_a16_row rfl, fun a16 => loadCycle_loadedA 3 (eaAbsoluteX a16)⟩

/-- Settles O14: the row of 0xB9 and a load's cycle. -/
theorem ldaAbsoluteYLoads : Obligations.LdaAbsoluteYLoads :=
  ⟨decode_of_a16_row rfl, fun a16 => loadCycle_loadedA 3 (eaAbsoluteY a16)⟩

/-- Settles O15: the row of 0xA1 and a load's cycle. -/
theorem ldaIndirectXLoads : Obligations.LdaIndirectXLoads :=
  ⟨decode_of_d8_row rfl, fun d8 => loadCycle_loadedA 2 (eaIndirectX d8)⟩

/-- Settles O16: the row of 0xB1 and a load's cycle. -/
theorem ldaIndirectYLoads : Obligations.LdaIndirectYLoads :=
  ⟨decode_of_d8_row rfl, fun d8 => loadCycle_loadedA 2 (eaIndirectY d8)⟩

/-- Settles O17: the row of 0x85 and a store's cycle. -/
theorem staZeroPageStores : Obligations.StaZeroPageStores :=
  ⟨decode_of_d8_row rfl, fun d8 => storeCycle_storedA 2 (eaZeroPage d8)⟩

/-- Settles O18: the row of 0x95 and a store's cycle. -/
theorem staZeroPageXStores : Obligations.StaZeroPageXStores :=
  ⟨decode_of_d8_row rfl, fun d8 => storeCycle_storedA 2 (eaZeroPageX d8)⟩

/-- Settles O19: the row of 0x8D and a store's cycle. -/
theorem staAbsoluteStores : Obligations.StaAbsoluteStores :=
  ⟨decode_of_a16_row rfl, fun a16 => storeCycle_storedA 3 (eaAbsolute a16)⟩

/-- Settles O20: the row of 0x9D and a store's cycle. -/
theorem staAbsoluteXStores : Obligations.StaAbsoluteXStores :=
  ⟨decode_of_a16_row rfl, fun a16 => storeCycle_storedA 3 (eaAbsoluteX a16)⟩

/-- Settles O21: the row of 0x99 and a store's cycle. -/
theorem staAbsoluteYStores : Obligations.StaAbsoluteYStores :=
  ⟨decode_of_a16_row rfl, fun a16 => storeCycle_storedA 3 (eaAbsoluteY a16)⟩

/-- Settles O22: the row of 0x81 and a store's cycle. -/
theorem staIndirectXStores : Obligations.StaIndirectXStores :=
  ⟨decode_of_d8_row rfl, fun d8 => storeCycle_storedA 2 (eaIndirectX d8)⟩

/-- Settles O23: the row of 0x91 and a store's cycle. -/
theorem staIndirectYStores : Obligations.StaIndirectYStores :=
  ⟨decode_of_d8_row rfl, fun d8 => storeCycle_storedA 2 (eaIndirectY d8)⟩

/-- Settles O27: what any `LDA` answers, read field by field. -/
theorem frameOfLoads : Obligations.FrameOfLoads := by
  intro i s t hi h
  obtain ⟨v, hv⟩ := exec_lda i s hi
  cases hv.symm.trans h
  exact ⟨rfl, rfl, sixBitsKept_updateZN v s.p, State.read_of_mem_eq rfl, rfl, rfl, rfl⟩

/-- What memory reads after any `STA`: `A` at the address it stores to, as before elsewhere (R170). -/
theorem exec_sta_read {i : Instr} {s t : State} {ea : Word} (hi : i.handler = .sta)
    (hea : storeAddress i s.beginInstr = some ea) (h : exec i s = .next t) (k : Word) :
    t.read k = if k = ea then s.a else s.read k := by
  obtain ⟨ea', hea', hv⟩ := exec_sta i s hi
  cases hea'.symm.trans hea
  cases hv.symm.trans h
  exact State.read_of_mem_write rfl k

/-- Settles O28: what any `STA` answers, read field by field. -/
theorem frameOfStores : Obligations.FrameOfStores := by
  intro i s t hi h
  obtain ⟨_, _, hv⟩ := exec_sta i s hi
  have hread : ∀ ea, storeAddress i s.beginInstr = some ea → ∀ b : Word, b ≠ ea → t.read b = s.read b :=
    fun ea hea b hb => (exec_sta_read hi hea h b).trans (if_neg hb)
  cases hv.symm.trans h
  exact ⟨rfl, rfl, rfl, rfl, rfl, rfl, rfl, hread⟩

/-- Settles O29: what a register instruction answers, read field by field. -/
theorem frameOfRegisterInstructions : Obligations.FrameOfRegisterInstructions := by
  intro i s t hi h
  obtain ⟨v, hv⟩ := exec_toX i s hi
  cases hv.symm.trans h
  exact ⟨rfl, rfl, sixBitsKept_updateZN v s.p, State.read_of_mem_eq rfl, rfl, rfl, rfl⟩

/-- The handler of `STA` stores at the resolved address (R170). -/
theorem handle_sta_of_resolve {m : Mode} {s : State} {ea : Word} (hea : resolve m s = .ok ea) :
    handle .sta m s = .ok (s.storeA ea) := by
  simp only [handle, hea]

/-- Settles O31: an operand mode resolves, so the cycle is a store to that address; NoneAddressing is the fault that
`resolvingNoneAddressingIsFatal` describes. -/
theorem staHandlerUnderAnyTable : Obligations.StaHandlerUnderAnyTable := by
  refine fun tab s row hr hrow hh => ⟨fun hm => ?_, fun hm => ?_⟩
  · obtain ⟨ea, hea⟩ := exists_resolve_eq_ok hm s.beginInstr
    have hcycle : cycle tab s = (s.beginInstr.storeA ea).endInstr row.len :=
      cycle_of_handle_ok hrow hh (handle_sta_of_resolve hea)
    have hstep := (stepWith_of_fetching tab hr).trans (congrArg Host.Outcome.next hcycle)
    exact ⟨ea, _, hea, hstep, storedA_beginInstr_storeA_endInstr s ea row.len, rfl, rfl, rfl, rfl⟩
  · obtain ⟨_, _, hfatal, _⟩ := resolvingNoneAddressingIsFatal
    obtain ⟨t, hstep, hrun, hrec, ha, _, _, hp, hmem⟩ := hfatal tab s row .sta hr hrow hh (.inr rfl) hm
    exact ⟨t, hstep, hrun, hrec, ha, hp, hmem⟩

/-- Settles O38: the load reads the byte that `exec_sta_read` says the store left. -/
theorem loadSeesTheLatestStore : Obligations.LoadSeesTheLatestStore := by
  intro i s t ea hi hea h
  exact ⟨_, loadCycle_eq 3 (eaAbsolute ea) t, (exec_sta_read hi hea h ea).trans (if_pos rfl)⟩

/-- Settles O39: each of the three bytes fetched is read from the memory the store left. -/
theorem nextFetchSeesTheStore : Obligations.NextFetchSeesTheStore := by
  intro i s t ea hi hea h
  simp only [State.fetchInstr, exec_sta_read hi hea h]

/-- Settles O32: the resolver is given mode by mode, and a word read is its two bytes. -/
theorem resolverGivesEachModesAddress : Obligations.ResolverGivesEachModesAddress :=
  fun _ => ⟨rfl, rfl, rfl, rfl, rfl, rfl, rfl, rfl, rfl, rfl⟩

/-- A zero-extended byte has the high byte 0x00 (spec/00_scope.md R9). -/
theorem hiByte_zext16 (b : Byte) : hiByte (zext16 b) = 0x00 := by
  apply BitVec.eq_of_toNat_eq
  rw [hiByte, BitVec.extractLsb'_toNat, zext16_toNat, Nat.shiftRight_eq_zero b.toNat 8 b.isLt]
  rfl

/-- Settles O34: each of the three modes zero-extends a byte. -/
theorem zeroPageModesStayInPageZero : Obligations.ZeroPageModesStayInPageZero := by
  intro s m ea hm h
  rcases hm with rfl | rfl | rfl <;> cases h <;> exact hiByte_zext16 _

/-- The next address is another one, at the top of memory too (spec/20_memory.md R57). -/
theorem add_one_ne_self (addr : Word) : addr + 1 ≠ addr :=
  add_ne_left.2 (by decide)

/-- What a state reads after a word is written: the low byte at the address, the high byte at the next (R55). -/
theorem State.read_writeWord (s : State) (addr w k : Word) :
    (s.writeWord addr w).read k =
      if k = addr + 1 then hiByte w else if k = addr then loByte w else s.read k := by
  rw [State.writeWord, State.read_write, State.read_write]

/-- A word written is the word then read (R54, R55). -/
theorem State.readWord_writeWord (s : State) (addr w : Word) : (s.writeWord addr w).readWord addr = w := by
  rw [State.readWord, State.read_writeWord, State.read_writeWord, if_pos rfl,
    if_neg (add_one_ne_self addr).symm, if_pos rfl, word_hiByte_loByte]

/-- Settles O37: by what a state reads after a word is written. -/
theorem wordWriteRoundTrip : Obligations.WordWriteRoundTrip := by
  refine fun s addr w => ⟨s.readWord_writeWord addr w, ?_, ?_, fun k hk hk' => ?_⟩
  · rw [State.read_writeWord, if_neg (add_one_ne_self addr).symm, if_pos rfl]; rfl
  · rw [State.read_writeWord, if_pos rfl]; rfl
  · rw [State.read_writeWord, if_neg hk', if_neg hk]

/-- A byte other than the blank one that memory reads is listed at its address. -/
theorem Memory.mem_of_read_ne {m : Memory} {k : Nat} (h : m.read k ≠ blankByte) : (k, m.read k) ∈ m := by
  induction m with
  | nil => exact absurd rfl h
  | cons c m ih =>
    by_cases hk : k = c.1
    · simp [Memory.read, hk]
    · have hread : Memory.read (c :: m) k = Memory.read m k := if_neg hk
      rw [hread] at h ⊢
      exact List.mem_cons_of_mem c (ih h)

/-- In a memory with rising addresses a listed byte is the one read at its address. -/
theorem Memory.read_of_mem {m : Memory} (hm : m.Pairwise fun c d => c.1 < d.1) {c : Host.Cell} (hc : c ∈ m) :
    m.read c.1 = c.2 := by
  induction m with
  | nil => nomatch hc
  | cons d m ih =>
    obtain ⟨habove, hrest⟩ := List.pairwise_cons.1 hm
    rcases List.mem_cons.1 hc with rfl | hc
    · exact if_pos rfl
    · exact (if_neg (Nat.ne_of_gt (habove c hc))).trans (ih hrest hc)

/-- A canonical memory lists exactly the bytes it reads in the address space that are not blank. -/
theorem Memory.mem_iff {m : Memory} (hm : m.wf) (c : Host.Cell) :
    c ∈ m ↔ c.1 < 65536 ∧ c.2 ≠ blankByte ∧ m.read c.1 = c.2 := by
  constructor
  · intro hc
    obtain ⟨haddr, hbyte⟩ := hm.2 c hc
    exact ⟨haddr, hbyte, Memory.read_of_mem hm.1 hc⟩
  · rintro ⟨_, hbyte, hread⟩
    have hc := Memory.mem_of_read_ne (hread ▸ hbyte)
    rwa [hread] at hc

/-- Settles O41: the two memories list the same cells, each in rising order. -/
theorem memoriesThatReadAlikeAreEqual : Obligations.MemoriesThatReadAlikeAreEqual := by
  intro m m' hm hm' hread
  have : Std.Irrefl fun c d : Host.Cell => c.1 < d.1 := ⟨fun c => Nat.lt_irrefl c.1⟩
  have : Std.Antisymm fun c d : Host.Cell => c.1 < d.1 := ⟨fun c d h h' => absurd h (Nat.lt_asymm h')⟩
  refine hm.1.eq_of_mem_iff hm'.1 fun c => ?_
  rw [Memory.mem_iff hm, Memory.mem_iff hm']
  refine and_congr_right fun haddr => ?_
  have haddr' : m.read c.1 = m'.read c.1 := by
    simpa [Nat.mod_eq_of_lt haddr] using hread (BitVec.ofNat 16 c.1)
  rw [haddr']

/-- Settles O42: the formula bit by bit; Z needs the byte 0x00, and then N is clear. -/
theorem flagUpdaterOnThePackedByte : Obligations.FlagUpdaterOnThePackedByte := by
  refine fun r p => ⟨?_, flagsFrom_updateZN r p, sixBitsKept_updateZN r p, fun ⟨hz, hn⟩ => ?_⟩
  · apply BitVec.eq_of_getLsbD_eq
    intro k hk
    rw [getLsbD_updateZN]
    by_cases hr : r = 0x00
    · rw [hr]
      interval_cases k <;> simp [nBit, zBit]
    · rw [if_neg hr, beq_false_of_ne hr]
      interval_cases k <;> simp [nBit, zBit]
  · obtain ⟨hzero, hneg⟩ := flagsFrom_updateZN r p
    rw [hneg, hzero.1 hz] at hn
    exact absurd hn (by decide)

end Sys2Proof.Machine

/-! Faults, runs and the host's moves. -/

namespace Sys2Proof.Machine

/-- Where the cycle of a running core takes a fault, so does the step, and it leaves the state R205 describes. -/
theorem faultEntry_of_cycle {tab : Optab} {s : State} {f : CoreFault} (hr : s.runState = .fetching)
    (h : cycle tab s = s.beginInstr.raiseFault f) : ∃ t, stepWith tab s = .next t ∧ FaultEntry s t f :=
  ⟨_, (stepWith_of_fetching tab hr).trans (congrArg Host.Outcome.next h), rfl⟩

/-- The handlers that resolve are those of `LDA` and `STA` (spec/42_execute_cycle.md R136). -/
theorem resolves_iff {h : Handler} : h.resolves = true ↔ h = .lda ∨ h = .sta := by
  cases h <;> simp [Handler.resolves]

/-- Settles O49: the cycle at each of the three points where it takes a fault. -/
theorem faultsByPriorityAndTheStateTheyLeave : Obligations.FaultsByPriorityAndTheStateTheyLeave := by
  refine fun tab s hr => ⟨fun hrow => ?_, fun row hrow hh => ?_, fun row h hrow hh hres hm => ?_⟩
  · exact faultEntry_of_cycle hr (cycle_of_lookup_none hrow)
  · exact faultEntry_of_cycle hr (cycle_of_handlerOf_none hrow hh)
  · exact faultEntry_of_cycle hr (cycle_of_handle_error hrow hh (handle_eq_error_iff.2 ⟨resolves_iff.1 hres, hm, rfl⟩))

/-- A handler that raises no fault ends its cycle ready to fetch or halted (R137, R138). -/
theorem cycle_of_handle_ok_ne_faulted {tab : Optab} {s t : State} {row : OptabRow} {h : Handler}
    (hrow : tab.lookup (s.read s.pc) = some row) (hh : handlerOf (s.read s.pc) = some h)
    (ht : handle h row.mode s.beginInstr = .ok t) : (cycle tab s).runState ≠ .faulted := by
  rw [cycle_of_handle_ok hrow hh ht]
  split
  · rename_i hbrk
    subst hbrk
    cases ht
    exact nofun
  · exact nofun

/-- A cycle takes UnrecognizedOpcode exactly where the table has no entry for the byte at `PC` (spec/60_exceptions.md
R201): each other fault records another kind. -/
theorem cycle_unrecognizedOpcode_iff {tab : Optab} {s : State} {b : Byte} :
    (cycle tab s).runState = .faulted ∧ (cycle tab s).faultRecord = some (.unrecognizedOpcode b) ↔
      tab.lookup (s.read s.pc) = none ∧ b = s.read s.pc := by
  constructor
  · rintro ⟨hrun, hrec⟩
    cases hrow : tab.lookup (s.read s.pc) with
    | none =>
      rw [cycle_of_lookup_none hrow] at hrec
      cases hrec
      exact ⟨rfl, rfl⟩
    | some row =>
      cases hh : handlerOf (s.read s.pc) with
      | none =>
        rw [cycle_of_handlerOf_none hrow hh] at hrec
        nomatch hrec
      | some h =>
        cases ht : handle h row.mode s.beginInstr with
        | error f =>
          obtain ⟨_, _, rfl⟩ := handle_eq_error_iff.1 ht
          rw [cycle_of_handle_error hrow hh ht] at hrec
          nomatch hrec
        | ok t => exact absurd hrun (cycle_of_handle_ok_ne_faulted hrow hh ht)
  · rintro ⟨hrow, rfl⟩
    rw [cycle_of_lookup_none hrow]
    exact ⟨rfl, rfl⟩

/-- The default `OPTAB` has no entry exactly for the bytes that are not listed (R86, R88). -/
theorem lookup_default_eq_none_iff {b : Byte} : Optab.lookup defaultOptab b = none ↔ b ∉ listedBytes := by
  rw [lookup_default, Option.map_eq_none_iff, findRow_eq_none_iff]

/-- Settles O50: a step of a running core is its cycle; the default step is the step under the default table. -/
theorem unrecognizedOpcodeExactlyWhereNoEntry : Obligations.UnrecognizedOpcodeExactlyWhereNoEntry := by
  have anyTable : ∀ (tab : Optab) (s : State) (b : Byte), s.runState = .fetching →
      ((∃ t, stepWith tab s = .next t ∧ t.runState = .faulted ∧ t.faultRecord = some (.unrecognizedOpcode b)) ↔
        tab.lookup (s.read s.pc) = none ∧ b = s.read s.pc) := by
    intro tab s b hr
    simp only [stepWith_of_fetching tab hr, Host.Outcome.next.injEq, exists_eq_left']
    exact cycle_unrecognizedOpcode_iff
  refine ⟨anyTable, fun s hr => ?_⟩
  rw [stepIsTheCycleOfTheSpec s, anyTable defaultOptab s _ hr, lookup_default_eq_none_iff]
  exact and_iff_left rfl

/-- `BRK` is fetched exactly at the opcode byte 0x00 (spec/30_encoding.md R86). -/
theorem fetchInstr_eq_brk_iff {s : State} : s.fetchInstr = some .brk ↔ s.read s.pc = 0x00 := by
  refine ⟨fun h => ?_, fetchInstr_of_read_00⟩
  have hopcode : ∀ r ∈ opcodeTable, ∀ b1 b2, r.operands.assemble b1 b2 = .brk → r.opcode = 0x00 := by
    simp [opcodeTable, implicitRows, ldaRows, staRows, Operands.assemble]
  obtain ⟨r, hrow, hbrk⟩ := Option.map_eq_some_iff.1 h
  obtain ⟨hmem, hop⟩ := findRow_some hrow
  exact hop.symm.trans (hopcode r hmem _ _ hbrk)

/-- Settles O51: a byte without a row faults; a byte with one is an instruction, which halts exactly if it is `BRK`. -/
theorem runGoesOnExactlyAtTheSeventeenBytes : Obligations.RunGoesOnExactlyAtTheSeventeenBytes := by
  intro s hr
  have hlisted : s.read s.pc ∈ listedBytes ↔ s.read s.pc = 0x00 ∨ s.read s.pc ∈ listedBytes.tail := List.mem_cons
  have hzero : (0x00 : Byte) ∉ listedBytes.tail := by decide
  have hnone : s.fetchInstr = none ↔ s.read s.pc ∉ listedBytes := (fetchInstr_eq_none s).trans findRow_eq_none_iff
  cases hi : s.fetchInstr with
  | none =>
    obtain ⟨hne, htail⟩ := not_or.1 (mt hlisted.2 (hnone.1 hi))
    exact ⟨s.takeUnrecognized, by simp only [step, hr, hi], iff_of_false nofun htail, iff_of_false nofun hne⟩
  | some i =>
    have hmem := hlisted.1 (not_not.1 fun h => Option.some_ne_none i (hi.symm.trans (hnone.2 h)))
    obtain ⟨t, ht, _, hrun⟩ := everyInstructionCompletesPastItself i s
    refine ⟨t, (step_of_fetchInstr hr hi).trans ht, ?_⟩
    have hbrk : i = .brk ↔ s.read s.pc = 0x00 := by rw [← fetchInstr_eq_brk_iff, hi, Option.some_inj]
    by_cases hop : s.read s.pc = 0x00
    · rw [hrun, if_pos (hbrk.2 hop)]
      exact ⟨iff_of_false nofun (hop ▸ hzero), iff_of_true rfl hop⟩
    · rw [hrun, if_neg (mt hbrk.1 hop)]
      exact ⟨iff_of_true rfl (hmem.resolve_left hop), iff_of_false nofun hop⟩

/-! The host's moves -/

/-- `mem_write` answers exactly while the core is not running (spec/20_memory.md R58). -/
theorem hostMemWrite_eq_next_iff {addr : Word} {b : Byte} {s t : State} :
    hostMemWrite addr b s = .next t ↔ s.running = false ∧ t = s.write addr b := by
  unfold hostMemWrite
  cases s.running <;> simp [eq_comm]

/-- `load` answers exactly while the core is not running, for an image that is not too long
(spec/70_reset_and_hazards.md R237). -/
theorem hostLoad_eq_next_iff {image : List Byte} {s t : State} :
    hostLoad image s = .next t ↔ s.running = false ∧ image.length ≤ Config.maxImage ∧ t = s.doLoad image := by
  unfold hostLoad
  by_cases hlen : image.length ≤ Config.maxImage
  · cases s.running <;> simp [hlen, Nat.not_lt.2 hlen, eq_comm]
  · cases s.running <;> simp [hlen, Nat.lt_of_not_le hlen]

/-- The entry of `run()` answers exactly in Idle after a reset (R240, D8). -/
theorem hostRun_eq_next_iff {s t : State} :
    hostRun s = .next t ↔ s.runState = .idle ∧ s.wasReset = true ∧ t = { s with runState := .fetching } := by
  unfold hostRun
  cases s.runState <;> cases s.wasReset <;> simp [eq_comm]

/-- In Halted and Faulted no step answers a next state (spec/60_exceptions.md R215). -/
theorem step_ne_next_of_stopped {s : State} (hr : s.runState = .halted ∨ s.runState = .faulted) (t : State) :
    step s ≠ .next t := by
  intro h
  rcases step_cases h with ⟨_, hs, _⟩ | ⟨hs, _⟩ | ⟨hs, _⟩ <;> simp [hs] at hr

/-- Settles O53: each host move by when it answers, and the step by its inversion lemma. -/
theorem hostMovesByRunState : Obligations.HostMovesByRunState := by
  refine fun s => ⟨fun addr b => ?_, fun image => ?_, ?_, ?_, step_ne_next_of_stopped⟩
  · simp only [hostMove, hostMemWrite_eq_next_iff, s.running_eq_false_iff, exists_and_left, exists_eq, and_true]
  · simp only [hostMove, hostLoad_eq_next_iff, s.running_eq_false_iff, exists_and_left, exists_eq, and_true,
      Config.maxImage]
  · simp only [hostMove, hostReset_eq_next_iff, s.running_eq_false_iff, exists_and_left, exists_eq, and_true]
  · simp only [hostMove, hostRun_eq_next_iff, exists_and_left, exists_eq, and_true]

/-- The reset of a freshly created block is the state right after reset (spec/10_state.md R38). -/
theorem hostReset_created : hostReset State.created = .next State.reset := rfl

/-- Settles O54: what `reset()` answers, read field by field. -/
theorem resetLeavesItsValues : Obligations.ResetLeavesItsValues := by
  refine ⟨fun s t h => ?_, hostReset_created⟩
  obtain ⟨_, rfl⟩ := hostReset_eq_next_iff.1 h
  exact ⟨rfl, rfl, rfl, rfl, rfl, State.read_of_mem_eq rfl, rfl, rfl⟩

/-- Settles O26: the row of 0x00 and `BRK`'s answer; the moves out of Halted by their inversion lemmas; the last clause is
the run of `State.reset`, whose memory is all zero. -/
theorem brkHaltsAndNothingElse : Obligations.BrkHaltsAndNothingElse := by
  refine ⟨decode_of_none_row rfl, fun s => ?_, fun s hr => ⟨step_ne_next_of_stopped (.inl hr), fun m t h => ?_⟩, ?_⟩
  · exact ⟨_, execBrk_eq s, rfl, rfl, rfl, rfl, rfl, rfl, State.read_of_mem_eq rfl, rfl, rfl⟩
  · obtain ⟨_, ⟨addr, b, _, rfl⟩ | ⟨image, _, _, rfl⟩ | ⟨hm, _⟩ | ⟨_, hidle, _⟩⟩ := hostMove_cases h
    · exact .inr hr
    · exact .inr (State.doLoad_eq s image ▸ hr)
    · exact .inl hm
    · simp [hr] at hidle
  · exact ⟨_, _, _, hostReset_created, hostRun_eq_next_iff.2 ⟨rfl, rfl, rfl⟩, step_of_read_00 rfl rfl,
      rfl, rfl, rfl, rfl, rfl, rfl⟩

/-- Settles O59: observation branches on whether the core is running and on whether it has been reset. -/
theorem observationByRunState : Obligations.ObservationByRunState := by
  refine fun s => ⟨fun hr => ?_, fun hr hw => ?_, fun hr hw => ?_⟩
  · rw [State.observe, s.running_eq_true_iff.2 hr, if_pos rfl]
  · rw [State.observe, s.running_eq_false_iff.2 hr, if_neg Bool.false_ne_true, hw, if_pos rfl]
  · rw [State.observe, s.running_eq_false_iff.2 hr, if_neg Bool.false_ne_true, hw, if_neg Bool.false_ne_true]

/-- What a state reads after an image is copied in that does not reach past the top of memory (R236). -/
theorem State.read_copyIn (s : State) (addr : Word) (image : List Byte) (hlen : addr.toNat + image.length ≤ 65536)
    (k : Word) :
    (s.copyIn addr image).read k =
      if addr.toNat ≤ k.toNat ∧ k.toNat < addr.toNat + image.length then image.getD (k.toNat - addr.toNat) 0x00
      else s.read k := by
  induction image generalizing s addr with
  | nil => exact (if_neg (by rw [List.length_nil]; omega)).symm
  | cons b bs ih =>
    rw [List.length_cons] at hlen
    have hnext : (addr + 1).toNat = (addr.toNat + 1) % 65536 := BitVec.toNat_add addr 1
    have ih := ih (s.write addr b) (addr + 1) (by omega)
    rw [State.copyIn, ih, State.read_write, List.length_cons]
    by_cases hk : k = addr
    · subst hk
      rw [if_neg (by omega), if_pos rfl, if_pos (by omega), Nat.sub_self, List.getD_cons_zero]
    · have hne : k.toNat ≠ addr.toNat := mt BitVec.eq_of_toNat_eq hk
      by_cases hin : addr.toNat ≤ k.toNat ∧ k.toNat < addr.toNat + (bs.length + 1)
      · have hsub : k.toNat - addr.toNat = k.toNat - (addr + 1).toNat + 1 := by omega
        rw [if_pos (by omega), if_pos hin, hsub, List.getD_cons_succ]
      · rw [if_neg (by omega), if_neg hk, if_neg hin]

/-- Settles O56: the image is copied first and the vector is written over it; `load` changes memory alone. -/
theorem loadPlacesTheImageAndTheVector : Obligations.LoadPlacesTheImageAndTheVector := by
  intro image s t h
  obtain ⟨_, hlen, rfl⟩ := hostLoad_eq_next_iff.1 h
  refine ⟨fun b => ?_, ?_⟩
  · have hfits : Config.loadAddr.toNat + image.length ≤ 65536 := Nat.add_le_add_left hlen 0x8000
    rw [State.doLoad, State.read_writeWord, State.read_copyIn s _ image hfits]
    by_cases hlo : b = 0xFFFC
    · subst hlo; rfl
    · rw [if_neg (c := b = 0xFFFC) hlo, if_neg (c := b = Config.resetVec) hlo]
      rfl
  · rw [State.doLoad_eq]
    exact ⟨rfl, rfl, rfl, rfl, rfl, rfl, rfl, rfl, rfl⟩

/-- After `load` the reset vector holds the load address (R236). -/
theorem State.readWord_doLoad (s : State) (image : List Byte) :
    (s.doLoad image).readWord Config.resetVec = Config.loadAddr :=
  State.readWord_writeWord _ _ _

/-- `run()` goes into the loop where its entry answers (R130, R131). -/
theorem run_of_hostRun {s u : State} (h : hostRun s = .next u) (tab : Optab) (fuel : Nat) :
    run tab fuel s = runLoop tab fuel u := by
  simp only [run, h]

/-- `load_and_run` is the three moves, then the loop, where each of them answers (R238). -/
theorem loadAndRun_of_moves {image : List Byte} {s l r u : State} (hload : hostLoad image s = .next l)
    (hreset : hostReset l = .next r) (hrun : hostRun r = .next u) (tab : Optab) (fuel : Nat) :
    loadAndRun tab fuel image s = runLoop tab fuel u := by
  simp only [loadAndRun, loadResetRun, hload, hreset, hrun]

/-- Settles O57: each of the three moves answers where the core is not running, and the reset reads the vector that the
load wrote last. -/
theorem loadAndRunStartsAtTheLoadAddress : Obligations.LoadAndRunStartsAtTheLoadAddress := by
  intro image s hr hlen
  have hload : hostLoad image s = .next (s.doLoad image) :=
    hostLoad_eq_next_iff.2 ⟨s.running_eq_false_iff.2 hr, hlen, rfl⟩
  have hrunning : (s.doLoad image).running = false := by
    rw [State.doLoad_eq]
    exact s.running_eq_false_iff.2 hr
  have hreset := hostReset_eq_next_iff.2 ⟨hrunning, rfl⟩
  have hrun := hostRun_eq_next_iff.2 ⟨(s.doLoad image).doReset_runState, (s.doLoad image).doReset_wasReset, rfl⟩
  refine ⟨_, _, _, hload, hreset, hrun, rfl, s.readWord_doLoad image, rfl, rfl, rfl, rfl, fun tab fuel => ?_⟩
  have hloop := loadAndRun_of_moves hload hreset hrun tab fuel
  exact ⟨hloop, hloop.trans (run_of_hostRun hrun tab fuel).symm⟩

/-! Runs -/

/-- `k` cycles from `u`, each but the last leaving the core Fetching, end in `t`, which shows the result `r` (R131, R207). -/
def RunEnds (tab : Optab) (k : Nat) (u t : State) (r : RunResult) : Prop :=
  (∀ j : Nat, j < k → ((cycle tab)^[j] u).runState = .fetching) ∧ t = (cycle tab)^[k] u ∧ t.runResult = some r

/-- A run that takes no cycle ends where it is. -/
theorem runEnds_zero {tab : Optab} {u t : State} {r : RunResult} :
    RunEnds tab 0 u t r ↔ t = u ∧ u.runResult = some r := by
  simp +contextual [RunEnds]

/-- A run that takes a cycle takes it from Fetching, and ends as the run after that cycle does. -/
theorem runEnds_succ {tab : Optab} {k : Nat} {u t : State} {r : RunResult} :
    RunEnds tab (k + 1) u t r ↔ u.runState = .fetching ∧ RunEnds tab k (cycle tab u) t r := by
  simp only [RunEnds, Nat.forall_lt_succ_left, Function.iterate_succ_apply, Function.iterate_zero_apply, and_assoc]

/-- The state a run ends in shows its result. -/
theorem RunEnds.runResult {tab : Optab} {k : Nat} {u t : State} {r : RunResult} (h : RunEnds tab k u t r) :
    t.runResult = some r := by
  obtain ⟨_, _, hres⟩ := h
  exact hres

/-- A running core shows no result (R207). -/
theorem runResult_of_fetching {s : State} (hr : s.runState = .fetching) : s.runResult = none := by
  simp only [State.runResult, hr]

/-- The result shown is Halted in Halted, or the recorded fault in Faulted (R207). -/
theorem runResult_eq_some {s : State} {r : RunResult} (h : s.runResult = some r) :
    (r = .halted ∧ s.runState = .halted) ∨ ∃ f, r = .faulted f ∧ s.runState = .faulted ∧ s.faultRecord = some f := by
  unfold State.runResult at h
  split at h
  · rename_i hr
    exact .inl ⟨(Option.some.inj h).symm, hr⟩
  · rename_i hr
    obtain ⟨f, hf, rfl⟩ := Option.map_eq_some_iff.1 h
    exact .inr ⟨f, rfl, hr, hf⟩
  · nomatch h
  · nomatch h
  · nomatch h

/-- Within one more cycle a run ends at once, or the core is Fetching and it ends after the cycle. -/
theorem exists_runEnds_succ_iff {tab : Optab} {n : Nat} {u t : State} {r : RunResult} :
    (∃ k ≤ n + 1, RunEnds tab k u t r) ↔
      (t = u ∧ u.runResult = some r) ∨ (u.runState = .fetching ∧ ∃ k ≤ n, RunEnds tab k (cycle tab u) t r) := by
  simp only [← Nat.lt_succ_iff, Nat.succ_eq_add_one, Nat.exists_lt_succ_left (n := n + 1), runEnds_zero, runEnds_succ]
  simp only [and_left_comm, exists_and_left]

/-- The loop goes on with a cycle while the core is Fetching (R131). -/
theorem runLoop_succ_of_fetching (tab : Optab) (n : Nat) {u : State} (hr : u.runState = .fetching) :
    runLoop tab (n + 1) u = runLoop tab n (cycle tab u) := by
  simp only [runLoop, runResult_of_fetching hr, stepWith_of_fetching tab hr]

/-- The loop answers nothing where no cycle runs and no result is shown. -/
theorem runLoop_succ_eq_none (tab : Optab) (n : Nat) {u : State} (hidle : u.runState ≠ .idle)
    (hfetch : u.runState ≠ .fetching) (h : u.runResult = none) : runLoop tab (n + 1) u = none := by
  cases hs : stepWith tab u with
  | next t => rcases stepWith_cases hs with ⟨hr, _⟩ | ⟨hr, _⟩ <;> contradiction
  | fault f => simp only [runLoop, h, hs]
  | refused r => simp only [runLoop, h, hs]

/-- No cycle leads to Idle (R231). -/
theorem cycle_runState_ne_idle (tab : Optab) (s : State) : (cycle tab s).runState ≠ .idle := by
  rcases cycle_runState tab s with ⟨h | h, _⟩ | ⟨h, _⟩ <;> simp [h]

/-- What the loop returns: the end of the run, where it is reached within the fuel. Outside Idle only: there a step is the
host's `run()` and not a cycle. -/
theorem runLoop_eq_some_iff {tab : Optab} {n : Nat} {u t : State} {r : RunResult} (hidle : u.runState ≠ .idle) :
    runLoop tab n u = some (r, t) ↔ ∃ k ≤ n, RunEnds tab k u t r := by
  induction n generalizing u with
  | zero => simp [runLoop, runEnds_zero, and_comm, eq_comm]
  | succ n ih =>
    rw [exists_runEnds_succ_iff]
    cases hres : u.runResult with
    | some r' =>
      have hfetch : u.runState ≠ .fetching := fun hr => by simp [runResult_of_fetching hr] at hres
      simp only [runLoop, hres]
      simp [hfetch, and_comm, eq_comm]
    | none =>
      by_cases hfetch : u.runState = .fetching
      · rw [runLoop_succ_of_fetching tab n hfetch, ih (cycle_runState_ne_idle tab u)]
        simp [hfetch]
      · rw [runLoop_succ_eq_none tab n hidle hfetch hres]
        simp [hfetch]

/-- `run()` is the entry of the run, then the loop (R130). -/
theorem run_eq_some_iff {tab : Optab} {n : Nat} {s t : State} {r : RunResult} :
    run tab n s = some (r, t) ↔ s.runState = .idle ∧ s.wasReset = true ∧
      ∃ k ≤ n, RunEnds tab k { s with runState := .fetching } t r := by
  rw [← runLoop_eq_some_iff (u := { s with runState := .fetching }) nofun]
  have hentry : s.runState = .idle → s.wasReset = true → hostRun s = .next { s with runState := .fetching } :=
    fun hr hw => hostRun_eq_next_iff.2 ⟨hr, hw, rfl⟩
  cases h : hostRun s with
  | next u =>
    obtain ⟨hr, hw, rfl⟩ := hostRun_eq_next_iff.1 h
    simp only [run, h, hr, hw, true_and]
  | fault f =>
    simp only [run, h]
    exact iff_of_false nofun fun ⟨hr, hw, _⟩ => nomatch h.symm.trans (hentry hr hw)
  | refused f =>
    simp only [run, h]
    exact iff_of_false nofun fun ⟨hr, hw, _⟩ => nomatch h.symm.trans (hentry hr hw)

/-- A run that takes a cycle ends by the cycle of a running core. -/
theorem RunEnds.last_cycle {tab : Optab} {k : Nat} {u t : State} {r : RunResult} (h : RunEnds tab (k + 1) u t r) :
    ∃ v : State, v.runState = .fetching ∧ t = cycle tab v := by
  obtain ⟨hfetch, ht, _⟩ := h
  exact ⟨(cycle tab)^[k] u, hfetch k k.lt_succ_self, ht.trans (Function.iterate_succ_apply' _ _ _)⟩

/-- Settles O52: the end of the run does not depend on the fuel, and under the default table the last cycle is a step,
which takes no other fault than UnrecognizedOpcode. -/
theorem runReturnsHaltedOrFaulted : Obligations.RunReturnsHaltedOrFaulted := by
  refine ⟨fun tab n s t r => run_eq_some_iff, fun tab n s t r h => ?_, fun n s t f h => ?_⟩
  · obtain ⟨hr, hw, k, hk, hends⟩ := run_eq_some_iff.1 h
    exact ⟨runResult_eq_some hends.runResult, fun m => run_eq_some_iff.2 ⟨hr, hw, k, Nat.le_add_right_of_le hk, hends⟩⟩
  · obtain ⟨_, _, k, _, hends⟩ := run_eq_some_iff.1 h
    obtain ⟨hhalted, _⟩ | ⟨f', hf, hrun, hrec⟩ := runResult_eq_some hends.runResult
    · nomatch hhalted
    · cases k with
      | zero => nomatch (runEnds_zero.1 hends).2
      | succ k =>
        obtain ⟨v, hv, rfl⟩ := hends.last_cycle
        cases hf
        exact ⟨_, Option.some.inj (hrec.symm.trans (step_faulted (step_of_fetching hv) hrun))⟩

end Sys2Proof.Machine
